-- ==== Sys2Proof/Word.lean ====
section
/-! DEFINITION. The bit-vector types of the machine (spec/00_scope.md R7, R11). -/

namespace Sys2Proof

/-- A Word: 32 bits, arithmetic modulo 2^32 (R7, R11). Registers, the program counter, bus addresses, instruction
words and the ALU result are Words. -/
abbrev Word := BitVec 32

/-- One byte of storage, the unit in which the model lists memory (log entry 8: the hardware itself addresses no byte). -/
abbrev Byte := BitVec 8

/-- A register index, five bits, 0 to 31 (R7, R15). The source names registers by number only; the assembler's names for
them are no part of the hardware (R19). -/
abbrev RegIx := BitVec 5

end Sys2Proof
end

