-- ==== Sys2Proof/Config.lean ====
section
/-! DEFINITION. What a deployment fixes (R8, R9), and the free values (R97). The configuration is plain data; the state
carries one (`State.cfg`) that no step writes, so every statement about a state holds for every configuration. -/

namespace Sys2Proof

/-- `ALT_BIT` (R9, R75): the instruction bit that selects SUB over ADD in the register form. -/
inductive AltBit where
  /-- Bit 29, the bit the source tests: the default. -/
  | bit29
  /-- Bit 30, the conventional bit: the corrected variant. -/
  | bit30
  deriving DecidableEq, Repr

/-- The bit number `ALT_BIT` stands for. -/
def AltBit.index : AltBit → Nat
  | .bit29 => 29
  | .bit30 => 30

/-- `WB_PHASE` (R9, R87): the phase in which the Write-Back stage is not stalled. -/
inductive WbPhase where
  /-- The default. -/
  | writeBack
  /-- The wiring the source has (R109). -/
  | memoryAccess
  deriving DecidableEq, Repr

/-- The parameters of a deployment (R8, R9). Sizes are in bytes. -/
structure Config where
  altBit  : AltBit
  wbPhase : WbPhase
  romBase : Nat
  romSize : Nat
  ramBase : Nat
  ramSize : Nat
  deriving DecidableEq, Repr

/-- The four conditions a deployment's memory map must satisfy (R41): aligned, not empty, not wrapping, disjoint.
A map that breaks one is no deployment (spec/93 U22); statements exclude it by this premise where they need to. -/
abbrev Config.Admissible (c : Config) : Prop :=
  (c.romBase % 4 = 0 ∧ c.ramBase % 4 = 0 ∧ c.romSize % 4 = 0 ∧ c.ramSize % 4 = 0) ∧
  (4 ≤ c.romSize ∧ 4 ≤ c.ramSize) ∧
  (c.romBase + c.romSize ≤ 2 ^ 32 ∧ c.ramBase + c.ramSize ≤ 2 ^ 32) ∧
  (c.romBase + c.romSize ≤ c.ramBase ∨ c.ramBase + c.ramSize ≤ c.romBase)

/-- The defaults of R9 over the example deployment of R8.
DESIGN CHOICE, unsafe (log entries 2 and 3): S1 gives no number of the map and decides neither parameter. -/
def Config.standard : Config :=
  { altBit := .bit29, wbPhase := .writeBack,
    romBase := 0x10000000, romSize := 0x1000, ramBase := 0x20000000, ramSize := 0x1000 }

/-- The free values: the arbitrary Word the Execute stage produces where the spec gives no result (R97, R117), one for
each draw number, under no law. It has no body, so nothing can be proved about its values. DESIGN CHOICE, safe
(log entry 7). -/
opaque Config.freeWord : Nat → Word

end Sys2Proof
end

