-- ==== Sys2Proof/Machine/State.lean ====
section
/-! DEFINITION. The machine's state, all of it (spec/10_state.md), the reasons a step can stop (spec/60_exceptions.md), and
the state after reset. -/

namespace Sys2Proof.Machine

/-- Which way a bus or device access goes (R140 "the failing address/operation"). -/
inductive AccessKind where
  | read
  | write
  deriving DecidableEq, Repr

/-- The five error conditions (R140), each with what it carries. A step of the core answers only `unmappedAddress`
(R146); from a state with a misaligned program counter, which no run reaches (R21), it answers `unalignedAccess`. -/
inductive Fault where
  /-- The address is not a multiple of 4 (R141). Raised by every bus and device access; safe. -/
  | unalignedAccess (address : Word) (kind : AccessKind)
  /-- An aligned bus address in neither range (R144). Raised by the bus, by the core's fetch among others; safe. -/
  | unmappedAddress (address : Word) (kind : AccessKind)
  /-- An aligned address outside the range of a device that is addressed directly (R142). Never raised by the core; safe. -/
  | outOfRange (address : Word) (kind : AccessKind)
  /-- A bus write to an aligned address in the ROM range (R143). Raised to the host only; safe. -/
  | readOnly (address : Word)
  /-- A ROM load longer than the ROM holds (R145), both in Words. Raised to the host only; safe. -/
  | imageTooLarge (length capacity : Nat)
  deriving DecidableEq, Repr

/-- Why a step gives an instruction no meaning. No step does: every instruction of the table has its meaning. -/
inductive Refusal where
  /-- An instruction whose arm of `exec` is still rejected by name; raised by no arm of this model; safe. -/
  | notModelled (mnemonic : String)
  deriving DecidableEq, Repr

/-- The phase variable's five values (R22). -/
inductive Phase where
  | fetch
  | decode
  | execute
  | memoryAccess
  | writeBack
  deriving DecidableEq, Repr

/-- The machine status (R39). -/
inductive Status where
  | running
  /-- A `cycle()` has failed with this condition; only a reset leaves this status (R147). -/
  | faulted (condition : Fault)
  deriving DecidableEq, Repr

/-- A stage-internal datum, held twice (R23): `cur` is visible in this cycle, `nxt` becomes current at the latch point. -/
structure Latch (α : Type) where
  cur : α
  nxt : α
  deriving DecidableEq, Repr

/-- The data of the Instruction Fetch stage (R20, R24). -/
structure FetchRecord where
  pc    : Word
  instr : Word
  deriving DecidableEq, Repr

/-- The Decoded Instruction Record (R25). -/
structure DecodedRecord where
  opcode : BitVec 7
  rd     : RegIx
  funct3 : BitVec 3
  rs1v   : Word
  rs2v   : Word
  imm    : BitVec 12
  funct7 : BitVec 7
  shamt  : BitVec 5
  deriving DecidableEq, Repr

/-- The Execution Result Record, held by EX (R26) and again by MA (R27). -/
structure ExecRecord where
  aluResult : Word
  rd        : RegIx
  isAluOp   : Bool
  deriving DecidableEq, Repr

/-- Storage: the bytes that are not zero, by bus address, in rising order. An address that is not listed reads as zero:
so ROM reads beyond the image (R36), and so, as DESIGN CHOICE (log entry 5), RAM reads where nothing was preloaded. -/
abbrev Memory := List Host.Cell

/-- Everything the machine holds between two cycles (spec/10_state.md), and two fields of the model's own. -/
structure State where
  /-- The deployment's parameters (R8, R9): the model's own field, written by no step (log entry 1). -/
  cfg     : Config
  /-- The registers x1 to x31, x1 first; there is no cell 0 (R15, R17). -/
  regs    : Vector Word 31
  /-- The program counter and the fetched word (R20, R24). -/
  ifStage : Latch FetchRecord
  /-- The Decoded Instruction Record (R25). -/
  deStage : Latch DecodedRecord
  /-- The Execution Result Record of EX (R26). -/
  exStage : Latch ExecRecord
  /-- The Execution Result Record of MA (R27). -/
  maStage : Latch ExecRecord
  /-- The phase variable (R22). -/
  phase   : Phase
  /-- The contents of ROM and RAM (R32, R33), by bus address (log entry 9). -/
  mem     : Memory
  /-- The machine status (R39). -/
  status  : Status
  /-- The number of the next free value, a counter of the model's own, paired like a datum of EX (log entry 7). -/
  draws   : Latch Nat
  deriving DecidableEq, Repr

/-- A datum whose two halves agree, as every datum is between cycles (R105). -/
def Latch.both {α : Type} (a : α) : Latch α := { cur := a, nxt := a }

/-- The Decoded Instruction Record at reset (R38). -/
def DecodedRecord.zero : DecodedRecord :=
  { opcode := 0, rd := 0, funct3 := 0, rs1v := 0, rs2v := 0, imm := 0, funct7 := 0, shamt := 0 }

/-- The Execution Result Record at reset (R38). -/
def ExecRecord.zero : ExecRecord := { aluResult := 0, rd := 0, isAluOp := false }

/-- The machine of a deployment right after construction, nothing loaded and nothing preloaded (R38, R161): the program
counter at `ROM_BASE`, the phase Fetch, every latch zero, Running. The registers (R34) and RAM (R35) are launch
parameters the spec leaves open: zero here, DESIGN CHOICE, unsafe (log entries 4 and 5); `Driver.lean`'s reset takes them
as arguments. -/
def State.initial (c : Config) : State :=
  { cfg := c
    regs := Vector.replicate 31 0
    ifStage := Latch.both { pc := BitVec.ofNat 32 c.romBase, instr := 0 }
    deStage := Latch.both DecodedRecord.zero
    exStage := Latch.both ExecRecord.zero
    maStage := Latch.both ExecRecord.zero
    phase := .fetch
    mem := []
    status := .running
    draws := Latch.both 0 }

/-- The machine right after reset, of the default deployment (log entries 2 and 3). -/
def State.reset : State := State.initial Config.standard

end Sys2Proof.Machine
end

