-- ==== Sys2Proof/Machine/Flags.lean ====
section
/-! DEFINITION. The hardware has no status flags (R29). What stands here are the three one-bit conditions the Execute stage
derives from a Decoded Instruction Record (R95); the first travels on as the ALU-class flag. -/

namespace Sys2Proof.Machine

/-- `isAluOp` (R72): the opcode, less its bit 5, is 0b0010011. -/
def isAluClass (opcode : BitVec 7) : Bool := opcode &&& 0b1011111#7 == 0b0010011#7

/-- `isRegisterOp` (R71): opcode bit 5. -/
def isRegisterForm (opcode : BitVec 7) : Bool := opcode.getLsbD 5

/-- `isAlternate` (R75): bit `ALT_BIT - 20` of the 12-bit field, which is instruction bit `ALT_BIT`. -/
def isAlternate (alt : AltBit) (imm : BitVec 12) : Bool := imm.getLsbD (alt.index - 20)

end Sys2Proof.Machine
end

