-- ==== Sys2Proof/Syntax.lean ====
section
/-! DEFINITION. The instructions: one constructor per row of spec/opcode_table.json (R84). A constructor carries every bit
its row does not fix, the ignored ones too, because the stage latches hold them (R25) and an instruction must determine
its word (log entry 10). -/

namespace Sys2Proof

/-- One instruction word, by the row of the opcode table it belongs to. -/
inductive Instr where
  /-- ADDI (R111): `imm` is the raw 12-bit field `w[31:20]`. -/
  | addi (rd rs1 : RegIx) (imm : BitVec 12)
  /-- ADD (R112): of `funct7` only the alternate bit, which is clear, is looked at (R76). -/
  | add (rd rs1 rs2 : RegIx) (funct7 : BitVec 7)
  /-- SUB (R113): of `funct7` only the alternate bit, which is set, is looked at (R76). -/
  | sub (rd rs1 rs2 : RegIx) (funct7 : BitVec 7)
  /-- UNDEF.OPIMM.001 (R117, R118; RISC-V's SLLI): `other` is `w[31:15]`, ignored. -/
  | undefOpimm001 (rd : RegIx) (other : BitVec 17)
  /-- UNDEF.OPIMM.010 (R117, R118; RISC-V's SLTI): `other` is `w[31:15]`, ignored. -/
  | undefOpimm010 (rd : RegIx) (other : BitVec 17)
  /-- UNDEF.OPIMM.011 (R117, R118; RISC-V's SLTIU): `other` is `w[31:15]`, ignored. -/
  | undefOpimm011 (rd : RegIx) (other : BitVec 17)
  /-- UNDEF.OPIMM.100 (R117, R118; RISC-V's XORI): `other` is `w[31:15]`, ignored. -/
  | undefOpimm100 (rd : RegIx) (other : BitVec 17)
  /-- UNDEF.OPIMM.101 (R117, R118; RISC-V's SRLI/SRAI): `other` is `w[31:15]`, ignored. -/
  | undefOpimm101 (rd : RegIx) (other : BitVec 17)
  /-- UNDEF.OPIMM.110 (R117, R118; RISC-V's ORI): `other` is `w[31:15]`, ignored. -/
  | undefOpimm110 (rd : RegIx) (other : BitVec 17)
  /-- UNDEF.OPIMM.111 (R117, R118; RISC-V's ANDI): `other` is `w[31:15]`, ignored. -/
  | undefOpimm111 (rd : RegIx) (other : BitVec 17)
  /-- UNDEF.OP.001 (R117, R119; RISC-V's SLL): `other` is `w[31:15]`, ignored. -/
  | undefOp001 (rd : RegIx) (other : BitVec 17)
  /-- UNDEF.OP.010 (R117, R119; RISC-V's SLT): `other` is `w[31:15]`, ignored. -/
  | undefOp010 (rd : RegIx) (other : BitVec 17)
  /-- UNDEF.OP.011 (R117, R119; RISC-V's SLTU): `other` is `w[31:15]`, ignored. -/
  | undefOp011 (rd : RegIx) (other : BitVec 17)
  /-- UNDEF.OP.100 (R117, R119; RISC-V's XOR): `other` is `w[31:15]`, ignored. -/
  | undefOp100 (rd : RegIx) (other : BitVec 17)
  /-- UNDEF.OP.101 (R117, R119; RISC-V's SRL/SRA): `other` is `w[31:15]`, ignored. -/
  | undefOp101 (rd : RegIx) (other : BitVec 17)
  /-- UNDEF.OP.110 (R117, R119; RISC-V's OR): `other` is `w[31:15]`, ignored. -/
  | undefOp110 (rd : RegIx) (other : BitVec 17)
  /-- UNDEF.OP.111 (R117, R119; RISC-V's AND): `other` is `w[31:15]`, ignored. -/
  | undefOp111 (rd : RegIx) (other : BitVec 17)
  /-- NOP.LOAD (R123): `other` is `w[31:7]`, ignored. -/
  | nopLoad (other : BitVec 25)
  /-- NOP.STORE (R124): `other` is `w[31:7]`, ignored. -/
  | nopStore (other : BitVec 25)
  /-- NOP.BRANCH (R125): `other` is `w[31:7]`, ignored. -/
  | nopBranch (other : BitVec 25)
  /-- NOP.JAL (R126): `other` is `w[31:7]`, ignored. -/
  | nopJal (other : BitVec 25)
  /-- NOP.JALR (R127): `other` is `w[31:7]`, ignored. -/
  | nopJalr (other : BitVec 25)
  /-- NOP.LUI (R128): `other` is `w[31:7]`, ignored. -/
  | nopLui (other : BitVec 25)
  /-- NOP.AUIPC (R129): `other` is `w[31:7]`, ignored. -/
  | nopAuipc (other : BitVec 25)
  /-- NOP.MISC-MEM (R130): `other` is `w[31:7]`, ignored. -/
  | nopMiscMem (other : BitVec 25)
  /-- NOP.SYSTEM (R131): `other` is `w[31:7]`, ignored. -/
  | nopSystem (other : BitVec 25)
  /-- NOP.LOAD-FP (R133): `other` is `w[31:7]`, ignored. -/
  | nopLoadFp (other : BitVec 25)
  /-- NOP.STORE-FP (R133): `other` is `w[31:7]`, ignored. -/
  | nopStoreFp (other : BitVec 25)
  /-- NOP.AMO (R133): `other` is `w[31:7]`, ignored. -/
  | nopAmo (other : BitVec 25)
  /-- NOP.OP-IMM-32 (R133): `other` is `w[31:7]`, ignored. -/
  | nopOpImm32 (other : BitVec 25)
  /-- NOP.OP-32 (R133): `other` is `w[31:7]`, ignored. -/
  | nopOp32 (other : BitVec 25)
  /-- NOP.MADD (R133): `other` is `w[31:7]`, ignored. -/
  | nopMadd (other : BitVec 25)
  /-- NOP.MSUB (R133): `other` is `w[31:7]`, ignored. -/
  | nopMsub (other : BitVec 25)
  /-- NOP.NMSUB (R133): `other` is `w[31:7]`, ignored. -/
  | nopNmsub (other : BitVec 25)
  /-- NOP.NMADD (R133): `other` is `w[31:7]`, ignored. -/
  | nopNmadd (other : BitVec 25)
  /-- NOP.OP-FP (R133): `other` is `w[31:7]`, ignored. -/
  | nopOpFp (other : BitVec 25)
  /-- NOP.ZERO_WORD (R132): the word 0x00000000. -/
  | nopZeroWord
  /-- NOP.ONES_WORD (R132): the word 0xFFFFFFFF. -/
  | nopOnesWord
  /-- NOP.OTHER (R122): every word of no other row, whole. -/
  | nopOther (word : Word)
  deriving DecidableEq, Repr

end Sys2Proof
end

