-- ==== Sys2Proof/WellFormed.lean ====
section
/-! DEFINITION. Which instruction terms stand for a word of their row (spec/30_encoding.md R74, R75, R84). Widths are in the
types, so only three rows need a check: ADD and SUB, told apart by the alternate bit, and the catch-all NOP.OTHER. -/

namespace Sys2Proof

/-- The opcodes that rows of priority 1 to 3 name (R74, R84): the two ALU-class opcodes and the labelled no-op ones. -/
def namedOpcodes : List (BitVec 7) :=
  [0x13#7, 0x33#7,
   0x03#7, 0x23#7, 0x63#7, 0x6F#7, 0x67#7, 0x37#7, 0x17#7, 0x0F#7, 0x73#7, 0x07#7,
   0x27#7, 0x2F#7, 0x1B#7, 0x3B#7, 0x43#7, 0x47#7, 0x4B#7, 0x4F#7, 0x53#7]

/-- The alternate bit as a bit of `funct7`, which is `w[31:25]` (R66, R75). -/
def AltBit.isSet (alt : AltBit) (funct7 : BitVec 7) : Bool := funct7.getLsbD (alt.index - 25)

/-- Well-formedness under a deployment's `ALT_BIT`. -/
def Instr.wf (alt : AltBit) : Instr → Bool
  | .addi _ _ _ => true
  | .add _ _ _ funct7 => !alt.isSet funct7
  | .sub _ _ _ funct7 => alt.isSet funct7
  | .undefOpimm001 _ _ => true
  | .undefOpimm010 _ _ => true
  | .undefOpimm011 _ _ => true
  | .undefOpimm100 _ _ => true
  | .undefOpimm101 _ _ => true
  | .undefOpimm110 _ _ => true
  | .undefOpimm111 _ _ => true
  | .undefOp001 _ _ => true
  | .undefOp010 _ _ => true
  | .undefOp011 _ _ => true
  | .undefOp100 _ _ => true
  | .undefOp101 _ _ => true
  | .undefOp110 _ _ => true
  | .undefOp111 _ _ => true
  | .nopLoad _ => true
  | .nopStore _ => true
  | .nopBranch _ => true
  | .nopJal _ => true
  | .nopJalr _ => true
  | .nopLui _ => true
  | .nopAuipc _ => true
  | .nopMiscMem _ => true
  | .nopSystem _ => true
  | .nopLoadFp _ => true
  | .nopStoreFp _ => true
  | .nopAmo _ => true
  | .nopOpImm32 _ => true
  | .nopOp32 _ => true
  | .nopMadd _ => true
  | .nopMsub _ => true
  | .nopNmsub _ => true
  | .nopNmadd _ => true
  | .nopOpFp _ => true
  | .nopZeroWord => true
  | .nopOnesWord => true
  | .nopOther word =>
    decide (word ≠ 0) && decide (word ≠ 0xFFFFFFFF#32) && !namedOpcodes.contains (word.extractLsb' 0 7)

end Sys2Proof
end

