-- ==== Sys2Proof/Decode.lean ====
section
/-! DEFINITION. The instruction decoder and encoder (spec/30_encoding.md), with the bit fields and the byte order they
use. -/

namespace Sys2Proof

/-! ## Fields (R66) -/

/-- `opcode = w[6:0]`. -/
def opcodeOf (w : Word) : BitVec 7 := w.extractLsb' 0 7
/-- `rd = w[11:7]`. -/
def rdOf (w : Word) : RegIx := w.extractLsb' 7 5
/-- `funct3 = w[14:12]`. -/
def funct3Of (w : Word) : BitVec 3 := w.extractLsb' 12 3
/-- `rs1 = w[19:15]`. -/
def rs1Of (w : Word) : RegIx := w.extractLsb' 15 5
/-- `rs2 = w[24:20]`. -/
def rs2Of (w : Word) : RegIx := w.extractLsb' 20 5
/-- `shamt = w[24:20]`, the same bits as `rs2`. -/
def shamtOf (w : Word) : BitVec 5 := w.extractLsb' 20 5
/-- `funct7 = w[31:25]`. -/
def funct7Of (w : Word) : BitVec 7 := w.extractLsb' 25 7
/-- `imm11_0 = w[31:20]`. -/
def immOf (w : Word) : BitVec 12 := w.extractLsb' 20 12
/-- `w[31:15]`, the bits an unimplemented ALU-class row ignores (R118, R119). -/
def upper17Of (w : Word) : BitVec 17 := w.extractLsb' 15 17
/-- `w[31:7]`, the bits a labelled no-op row ignores (R84). -/
def upper25Of (w : Word) : BitVec 25 := w.extractLsb' 7 25

/-! ## The decoder -/

/-- The rows of opcode 0x13, the immediate form, by `funct3` (R74, R118). -/
def decodeImmediateForm (w : Word) : Instr :=
  match funct3Of w with
  | 0b000#3 => .addi (rdOf w) (rs1Of w) (immOf w)
  | 0b001#3 => .undefOpimm001 (rdOf w) (upper17Of w)
  | 0b010#3 => .undefOpimm010 (rdOf w) (upper17Of w)
  | 0b011#3 => .undefOpimm011 (rdOf w) (upper17Of w)
  | 0b100#3 => .undefOpimm100 (rdOf w) (upper17Of w)
  | 0b101#3 => .undefOpimm101 (rdOf w) (upper17Of w)
  | 0b110#3 => .undefOpimm110 (rdOf w) (upper17Of w)
  | 0b111#3 => .undefOpimm111 (rdOf w) (upper17Of w)

/-- The rows of opcode 0x33, the register form, by `funct3` and the alternate bit (R74, R75, R119). -/
def decodeRegisterForm (alt : AltBit) (w : Word) : Instr :=
  match funct3Of w with
  | 0b000#3 =>
    if alt.isSet (funct7Of w) then .sub (rdOf w) (rs1Of w) (rs2Of w) (funct7Of w)
    else .add (rdOf w) (rs1Of w) (rs2Of w) (funct7Of w)
  | 0b001#3 => .undefOp001 (rdOf w) (upper17Of w)
  | 0b010#3 => .undefOp010 (rdOf w) (upper17Of w)
  | 0b011#3 => .undefOp011 (rdOf w) (upper17Of w)
  | 0b100#3 => .undefOp100 (rdOf w) (upper17Of w)
  | 0b101#3 => .undefOp101 (rdOf w) (upper17Of w)
  | 0b110#3 => .undefOp110 (rdOf w) (upper17Of w)
  | 0b111#3 => .undefOp111 (rdOf w) (upper17Of w)

/-- The rows a word's opcode chooses (R74, R84): the two ALU-class opcodes, the labelled no-op opcodes, and NOP.OTHER for
every other. -/
def decodeOpcode (alt : AltBit) (w : Word) : BitVec 7 → Instr
  | 0x13#7 => decodeImmediateForm w
  | 0x33#7 => decodeRegisterForm alt w
  | 0x03#7 => .nopLoad (upper25Of w)
  | 0x23#7 => .nopStore (upper25Of w)
  | 0x63#7 => .nopBranch (upper25Of w)
  | 0x6F#7 => .nopJal (upper25Of w)
  | 0x67#7 => .nopJalr (upper25Of w)
  | 0x37#7 => .nopLui (upper25Of w)
  | 0x17#7 => .nopAuipc (upper25Of w)
  | 0x0F#7 => .nopMiscMem (upper25Of w)
  | 0x73#7 => .nopSystem (upper25Of w)
  | 0x07#7 => .nopLoadFp (upper25Of w)
  | 0x27#7 => .nopStoreFp (upper25Of w)
  | 0x2F#7 => .nopAmo (upper25Of w)
  | 0x1B#7 => .nopOpImm32 (upper25Of w)
  | 0x3B#7 => .nopOp32 (upper25Of w)
  | 0x43#7 => .nopMadd (upper25Of w)
  | 0x47#7 => .nopMsub (upper25Of w)
  | 0x4B#7 => .nopNmsub (upper25Of w)
  | 0x4F#7 => .nopNmadd (upper25Of w)
  | 0x53#7 => .nopOpFp (upper25Of w)
  | _ => .nopOther w

/-- The instruction a Word stands for: total, every Word is accepted (R79). The two constant words are rows of their own,
of the priority of the labelled opcodes (R84), and no labelled opcode is theirs. -/
def decode (alt : AltBit) (w : Word) : Instr :=
  if w = 0 then .nopZeroWord
  else if w = 0xFFFFFFFF#32 then .nopOnesWord
  else decodeOpcode alt w (opcodeOf w)

/-! ## Bytes

The core reads whole Words and addresses no byte; little-endian packing is the host's convention (R55, log entry 8). -/

/-- The four bytes of a Word, the lowest address first (R55). -/
def wordBytes (w : Word) : List Byte :=
  [w.extractLsb' 0 8, w.extractLsb' 8 8, w.extractLsb' 16 8, w.extractLsb' 24 8]

/-- The Word that four bytes pack to, `b0` at the lowest address (R55). -/
def wordOfBytes (b0 b1 b2 b3 : Byte) : Word := b3 ++ b2 ++ b1 ++ b0

/-- Why bytes are no instruction. -/
inductive DecodeError where
  /-- Fewer than the four bytes of an instruction are there (R65). Safe: no instruction is made up. -/
  | truncated
  deriving DecidableEq, Repr

/-- The instruction at the front of a list of bytes, and the bytes after it. -/
def decodeBytes (alt : AltBit) : List Byte → Except DecodeError (Instr × List Byte)
  | b0 :: b1 :: b2 :: b3 :: rest => .ok (decode alt (wordOfBytes b0 b1 b2 b3), rest)
  | _ => .error .truncated

/-- The decoder's reading of an instruction given as the opcode table numbers its bits. The table is written for
`ALT_BIT = 29` (R84). More than 32 bits are no instruction of this hardware (R65). -/
def decodeTableWord (nbits w : Nat) : Option Instr :=
  if 32 < nbits then none
  else match decodeBytes .bit29 (wordBytes (BitVec.ofNat 32 (w % 2 ^ nbits))) with
    | .ok (i, _) => some i
    | .error _ => none

/-! ## The encoder -/

/-- The immediate form (R67). -/
def immediateForm (imm : BitVec 12) (rs1 : RegIx) (funct3 : BitVec 3) (rd : RegIx) (opcode : BitVec 7) : Word :=
  imm ++ rs1 ++ funct3 ++ rd ++ opcode

/-- The register form (R67). -/
def registerForm (funct7 : BitVec 7) (rs2 rs1 : RegIx) (funct3 : BitVec 3) (rd : RegIx) (opcode : BitVec 7) : Word :=
  funct7 ++ rs2 ++ rs1 ++ funct3 ++ rd ++ opcode

/-- A word of an unimplemented ALU-class row (R118, R119). -/
def unimplementedForm (upper : BitVec 17) (funct3 : BitVec 3) (rd : RegIx) (opcode : BitVec 7) : Word :=
  upper ++ funct3 ++ rd ++ opcode

/-- A word of a labelled no-op row (R84). -/
def opcodeForm (upper : BitVec 25) (opcode : BitVec 7) : Word := upper ++ opcode

/-- The word of an instruction, from the encodings of R67, R74, R118, R119 and the opcode table. -/
def encode : Instr → Word
  | .addi rd rs1 imm => immediateForm imm rs1 0b000#3 rd 0x13#7
  | .add rd rs1 rs2 funct7 => registerForm funct7 rs2 rs1 0b000#3 rd 0x33#7
  | .sub rd rs1 rs2 funct7 => registerForm funct7 rs2 rs1 0b000#3 rd 0x33#7
  | .undefOpimm001 rd other => unimplementedForm other 0b001#3 rd 0x13#7
  | .undefOpimm010 rd other => unimplementedForm other 0b010#3 rd 0x13#7
  | .undefOpimm011 rd other => unimplementedForm other 0b011#3 rd 0x13#7
  | .undefOpimm100 rd other => unimplementedForm other 0b100#3 rd 0x13#7
  | .undefOpimm101 rd other => unimplementedForm other 0b101#3 rd 0x13#7
  | .undefOpimm110 rd other => unimplementedForm other 0b110#3 rd 0x13#7
  | .undefOpimm111 rd other => unimplementedForm other 0b111#3 rd 0x13#7
  | .undefOp001 rd other => unimplementedForm other 0b001#3 rd 0x33#7
  | .undefOp010 rd other => unimplementedForm other 0b010#3 rd 0x33#7
  | .undefOp011 rd other => unimplementedForm other 0b011#3 rd 0x33#7
  | .undefOp100 rd other => unimplementedForm other 0b100#3 rd 0x33#7
  | .undefOp101 rd other => unimplementedForm other 0b101#3 rd 0x33#7
  | .undefOp110 rd other => unimplementedForm other 0b110#3 rd 0x33#7
  | .undefOp111 rd other => unimplementedForm other 0b111#3 rd 0x33#7
  | .nopLoad other => opcodeForm other 0x03#7
  | .nopStore other => opcodeForm other 0x23#7
  | .nopBranch other => opcodeForm other 0x63#7
  | .nopJal other => opcodeForm other 0x6F#7
  | .nopJalr other => opcodeForm other 0x67#7
  | .nopLui other => opcodeForm other 0x37#7
  | .nopAuipc other => opcodeForm other 0x17#7
  | .nopMiscMem other => opcodeForm other 0x0F#7
  | .nopSystem other => opcodeForm other 0x73#7
  | .nopLoadFp other => opcodeForm other 0x07#7
  | .nopStoreFp other => opcodeForm other 0x27#7
  | .nopAmo other => opcodeForm other 0x2F#7
  | .nopOpImm32 other => opcodeForm other 0x1B#7
  | .nopOp32 other => opcodeForm other 0x3B#7
  | .nopMadd other => opcodeForm other 0x43#7
  | .nopMsub other => opcodeForm other 0x47#7
  | .nopNmsub other => opcodeForm other 0x4B#7
  | .nopNmadd other => opcodeForm other 0x4F#7
  | .nopOpFp other => opcodeForm other 0x53#7
  | .nopZeroWord => 0
  | .nopOnesWord => 0xFFFFFFFF#32
  | .nopOther word => word

/-! ## The opcode table (spec/opcode_table.json, R84)

A second statement of the same map, as mask and match constants, against which the decoder is proved. -/

/-- A row: a word belongs to it when `w &&& mask = bits`. -/
structure OpcodeRow where
  mnemonic : String
  mask     : Word
  bits     : Word
  deriving DecidableEq, Repr

/-- A row matches a word (R84). -/
def OpcodeRow.matchesWord (r : OpcodeRow) (w : Word) : Bool := w &&& r.mask == r.bits

/-- Priority 1 (R74): ADDI, ADD, SUB, with the constants of either `ALT_BIT`. -/
def addSubRows : AltBit → List OpcodeRow
  | .bit29 => [⟨"ADDI", 0x0000707F, 0x00000013⟩, ⟨"ADD", 0x2000707F, 0x00000033⟩, ⟨"SUB", 0x2000707F, 0x20000033⟩]
  | .bit30 => [⟨"ADDI", 0x0000707F, 0x00000013⟩, ⟨"ADD", 0x4000707F, 0x00000033⟩, ⟨"SUB", 0x4000707F, 0x40000033⟩]

/-- Priority 2 (R118, R119): the unimplemented ALU-class positions. -/
def unimplementedRows : List OpcodeRow :=
  [⟨"UNDEF.OPIMM.001", 0x0000707F, 0x00001013⟩,
   ⟨"UNDEF.OPIMM.010", 0x0000707F, 0x00002013⟩,
   ⟨"UNDEF.OPIMM.011", 0x0000707F, 0x00003013⟩,
   ⟨"UNDEF.OPIMM.100", 0x0000707F, 0x00004013⟩,
   ⟨"UNDEF.OPIMM.101", 0x0000707F, 0x00005013⟩,
   ⟨"UNDEF.OPIMM.110", 0x0000707F, 0x00006013⟩,
   ⟨"UNDEF.OPIMM.111", 0x0000707F, 0x00007013⟩] ++
  [⟨"UNDEF.OP.001", 0x0000707F, 0x00001033⟩,
   ⟨"UNDEF.OP.010", 0x0000707F, 0x00002033⟩,
   ⟨"UNDEF.OP.011", 0x0000707F, 0x00003033⟩,
   ⟨"UNDEF.OP.100", 0x0000707F, 0x00004033⟩,
   ⟨"UNDEF.OP.101", 0x0000707F, 0x00005033⟩,
   ⟨"UNDEF.OP.110", 0x0000707F, 0x00006033⟩,
   ⟨"UNDEF.OP.111", 0x0000707F, 0x00007033⟩]

/-- Priority 3 (R123 to R133): the labelled no-op rows. -/
def labelledRows : List OpcodeRow :=
  [⟨"NOP.LOAD", 0x0000007F, 0x00000003⟩,
   ⟨"NOP.STORE", 0x0000007F, 0x00000023⟩,
   ⟨"NOP.BRANCH", 0x0000007F, 0x00000063⟩,
   ⟨"NOP.JAL", 0x0000007F, 0x0000006F⟩,
   ⟨"NOP.JALR", 0x0000007F, 0x00000067⟩,
   ⟨"NOP.LUI", 0x0000007F, 0x00000037⟩,
   ⟨"NOP.AUIPC", 0x0000007F, 0x00000017⟩,
   ⟨"NOP.MISC-MEM", 0x0000007F, 0x0000000F⟩,
   ⟨"NOP.SYSTEM", 0x0000007F, 0x00000073⟩,
   ⟨"NOP.LOAD-FP", 0x0000007F, 0x00000007⟩] ++
  [⟨"NOP.STORE-FP", 0x0000007F, 0x00000027⟩,
   ⟨"NOP.AMO", 0x0000007F, 0x0000002F⟩,
   ⟨"NOP.OP-IMM-32", 0x0000007F, 0x0000001B⟩,
   ⟨"NOP.OP-32", 0x0000007F, 0x0000003B⟩,
   ⟨"NOP.MADD", 0x0000007F, 0x00000043⟩,
   ⟨"NOP.MSUB", 0x0000007F, 0x00000047⟩,
   ⟨"NOP.NMSUB", 0x0000007F, 0x0000004B⟩,
   ⟨"NOP.NMADD", 0x0000007F, 0x0000004F⟩,
   ⟨"NOP.OP-FP", 0x0000007F, 0x00000053⟩] ++
  [⟨"NOP.ZERO_WORD", 0xFFFFFFFF, 0x00000000⟩, ⟨"NOP.ONES_WORD", 0xFFFFFFFF, 0xFFFFFFFF⟩]

/-- The whole table in the order of R84, the catch-all last (priority 9). -/
def opcodeTable (alt : AltBit) : List OpcodeRow :=
  addSubRows alt ++ unimplementedRows ++ labelledRows ++ [⟨"NOP.OTHER", 0x00000000, 0x00000000⟩]

/-- The mnemonic of the first row that matches a word (R84). -/
def tableMnemonic (alt : AltBit) (w : Word) : Option String :=
  ((opcodeTable alt).find? (fun r => r.matchesWord w)).map (fun r => r.mnemonic)

/-- The mnemonic of an instruction, as the table spells it. -/
def mnemonicOf : Instr → String
  | .addi _ _ _ => "ADDI"
  | .add _ _ _ _ => "ADD"
  | .sub _ _ _ _ => "SUB"
  | .undefOpimm001 _ _ => "UNDEF.OPIMM.001"
  | .undefOpimm010 _ _ => "UNDEF.OPIMM.010"
  | .undefOpimm011 _ _ => "UNDEF.OPIMM.011"
  | .undefOpimm100 _ _ => "UNDEF.OPIMM.100"
  | .undefOpimm101 _ _ => "UNDEF.OPIMM.101"
  | .undefOpimm110 _ _ => "UNDEF.OPIMM.110"
  | .undefOpimm111 _ _ => "UNDEF.OPIMM.111"
  | .undefOp001 _ _ => "UNDEF.OP.001"
  | .undefOp010 _ _ => "UNDEF.OP.010"
  | .undefOp011 _ _ => "UNDEF.OP.011"
  | .undefOp100 _ _ => "UNDEF.OP.100"
  | .undefOp101 _ _ => "UNDEF.OP.101"
  | .undefOp110 _ _ => "UNDEF.OP.110"
  | .undefOp111 _ _ => "UNDEF.OP.111"
  | .nopLoad _ => "NOP.LOAD"
  | .nopStore _ => "NOP.STORE"
  | .nopBranch _ => "NOP.BRANCH"
  | .nopJal _ => "NOP.JAL"
  | .nopJalr _ => "NOP.JALR"
  | .nopLui _ => "NOP.LUI"
  | .nopAuipc _ => "NOP.AUIPC"
  | .nopMiscMem _ => "NOP.MISC-MEM"
  | .nopSystem _ => "NOP.SYSTEM"
  | .nopLoadFp _ => "NOP.LOAD-FP"
  | .nopStoreFp _ => "NOP.STORE-FP"
  | .nopAmo _ => "NOP.AMO"
  | .nopOpImm32 _ => "NOP.OP-IMM-32"
  | .nopOp32 _ => "NOP.OP-32"
  | .nopMadd _ => "NOP.MADD"
  | .nopMsub _ => "NOP.MSUB"
  | .nopNmsub _ => "NOP.NMSUB"
  | .nopNmadd _ => "NOP.NMADD"
  | .nopOpFp _ => "NOP.OP-FP"
  | .nopZeroWord => "NOP.ZERO_WORD"
  | .nopOnesWord => "NOP.ONES_WORD"
  | .nopOther _ => "NOP.OTHER"

end Sys2Proof
end

