-- ==== Sys2Proof/Machine/Ops.lean ====
section
/-! DEFINITION. The named operations: the register file's ports, storage, the two devices, the system bus, and what a raised
condition does. -/

namespace Sys2Proof.Machine

/-! ## The register file (R15 to R19)

The 31 cells are alike: index 0 is the only one either port tests for, and no instruction names a register that is not a
field of its word (R18, R19; `no_register_but_zero_is_special` in Sys2Proof/Laws/Renaming.lean). -/

/-- The cell of a register: x`i` stands at `i - 1`. Index 0 has no cell of its own and both ports test for it. -/
def cellOf (i : RegIx) : Fin 31 := ⟨i.toNat - 1, by have := i.isLt; omega⟩

/-- The read port (R16): index 0 reads zero. -/
def State.readReg (s : State) (i : RegIx) : Word := if i = 0 then 0 else s.regs[cellOf i]

/-- The write port (R17): a write to index 0 is accepted and discarded. -/
def State.writeReg (s : State) (i : RegIx) (v : Word) : State :=
  if i = 0 then s else { s with regs := s.regs.set (cellOf i) v }

/-! ## Storage -/

/-- One byte of storage: zero where no cell is listed (log entry 5). -/
def Memory.byteAt : Memory → Nat → Byte
  | [], _ => 0
  | (b, v) :: m, a => if a = b then v else Memory.byteAt m a

/-- Writes one byte and keeps the canonical form: rising addresses, no zero byte listed. -/
def Memory.setByte : Memory → Nat → Byte → Memory
  | [], a, v => if v = 0 then [] else [(a, v)]
  | (b, u) :: m, a, v =>
    if a < b then (if v = 0 then (b, u) :: m else (a, v) :: (b, u) :: m)
    else if a = b then (if v = 0 then m else (a, v) :: m)
    else (b, u) :: Memory.setByte m a v

/-- Every listed address lies above `lo`, they rise strictly, and no listed byte is zero. -/
def Memory.risesFrom : Nat → Memory → Bool
  | _, [] => true
  | lo, (b, v) :: m => decide (lo ≤ b) && decide (v ≠ 0) && Memory.risesFrom (b + 1) m

/-- The canonical form: equal memories are equal lists. -/
def Memory.wf (m : Memory) : Bool := Memory.risesFrom 0 m

/-- The Word stored at a byte address, little-endian (R55, log entry 8). -/
def Memory.wordAt (m : Memory) (a : Nat) : Word :=
  wordOfBytes (m.byteAt a) (m.byteAt (a + 1)) (m.byteAt (a + 2)) (m.byteAt (a + 3))

/-- Stores the bytes of a list from an address up. -/
def Memory.setBytes (m : Memory) (a : Nat) : List Byte → Memory
  | [] => m
  | v :: vs => Memory.setBytes (m.setByte a v) (a + 1) vs

/-- Stores a Word at a byte address, all 32 bits at once (R45, R54). -/
def Memory.setWord (m : Memory) (a : Nat) (w : Word) : Memory := m.setBytes a (wordBytes w)

/-- Stores Words from a byte address up, 4 bytes apart (R42 "word 0 at base, word 1 at base+4"). -/
def Memory.setWords (m : Memory) (a : Nat) : List Word → Memory
  | [] => m
  | w :: ws => Memory.setWords (m.setWord a w) (a + 4) ws

/-- Clears the storage of a range, which then reads zero. -/
def Memory.clear (m : Memory) (base size : Nat) : Memory :=
  m.filter fun c => !(decide (base ≤ c.1) && decide (c.1 < base + size))

/-! ## The memory map and the devices (R41 to R47) -/

/-- An address lies in the ROM range (R41). -/
def inRom (c : Config) (a : Nat) : Bool := decide (c.romBase ≤ a) && decide (a < c.romBase + c.romSize)

/-- An address lies in the RAM range (R41). -/
def inRam (c : Config) (a : Nat) : Bool := decide (c.ramBase ≤ a) && decide (a < c.ramBase + c.ramSize)

/-- What owns a bus address (R47). -/
inductive Device where
  | rom
  | ram
  | unmapped
  deriving DecidableEq, Repr

/-- The address decoder (R47). -/
def route (c : Config) (a : Word) : Device :=
  if inRom c a.toNat then .rom else if inRam c a.toNat then .ram else .unmapped

/-- An address is a multiple of 4 (R53). -/
def aligned (a : Word) : Bool := a.toNat % 4 == 0

/-- `ROM.read` (R44), alignment first (R46). Word `k` of ROM is stored at bus address `ROM_BASE + 4k`. -/
def romRead (s : State) (a : Word) : Except Fault Word :=
  if !aligned a then .error (.unalignedAccess a .read)
  else if !inRom s.cfg a.toNat then .error (.outOfRange a .read)
  else .ok (s.mem.wordAt a.toNat)

/-- `RAM.read` (R45), alignment first (R46). -/
def ramRead (s : State) (a : Word) : Except Fault Word :=
  if !aligned a then .error (.unalignedAccess a .read)
  else if !inRam s.cfg a.toNat then .error (.outOfRange a .read)
  else .ok (s.mem.wordAt a.toNat)

/-- `RAM.write` (R45), alignment first (R46). -/
def ramWrite (s : State) (a : Word) (v : Word) : Except Fault State :=
  if !aligned a then .error (.unalignedAccess a .write)
  else if !inRam s.cfg a.toNat then .error (.outOfRange a .write)
  else .ok { s with mem := s.mem.setWord a.toNat v }

/-- The ROM's capacity in Words (R43). -/
def romCapacity (c : Config) : Nat := c.romSize / 4

/-- What `ROM.load` does (R43): it replaces the whole image, zero beyond it (R36); an image that is too long leaves the old
one. When the host may load is tested by `hostLoad` (R166). -/
def romLoad (s : State) (image : List Word) : Except Fault State :=
  if romCapacity s.cfg < image.length then .error (.imageTooLarge image.length (romCapacity s.cfg))
  else .ok { s with mem := (s.mem.clear s.cfg.romBase s.cfg.romSize).setWords s.cfg.romBase image }

/-! ## The system bus (R47 to R50) -/

/-- `BusRead` (R48): alignment first, then routing (R50). -/
def busRead (s : State) (a : Word) : Except Fault Word :=
  if !aligned a then .error (.unalignedAccess a .read)
  else match route s.cfg a with
    | .rom => romRead s a
    | .ram => ramRead s a
    | .unmapped => .error (.unmappedAddress a .read)

/-- `BusWrite` (R49): alignment first, then routing (R50). No stage of the core calls it (R52). -/
def busWrite (s : State) (a : Word) (v : Word) : Except Fault State :=
  if !aligned a then .error (.unalignedAccess a .write)
  else match route s.cfg a with
    | .rom => .error (.readOnly a)
    | .ram => ramWrite s a v
    | .unmapped => .error (.unmappedAddress a .write)

/-! ## The program counter, and a raised condition -/

/-- The program counter, the current half of its pair (R20). -/
def State.pc (s : State) : Word := s.ifStage.cur.pc

/-- The instruction fetch (R59, R91): one bus read at the program counter, decoded under the deployment's `ALT_BIT`. -/
def fetchInstr (s : State) : Except Fault Instr :=
  match busRead s s.pc with
  | .error f => .error f
  | .ok w => .ok (decode s.cfg.altBit w)

/-- What a failed `cycle()` leaves (R147): the status, and nothing else, changed. There is no trap entry and so no
return from one (R152, R153). -/
def State.takeFault (s : State) (f : Fault) : State := { s with status := .faulted f }

end Sys2Proof.Machine
end

