-- ==== Sys2Proof/Machine/Operands.lean ====
section
/-! DEFINITION. The operand forms: the sign-extended immediate, the record Decode makes of a word, and the ALU. -/

namespace Sys2Proof.Machine

/-- `sext_12` (R69): the field's top bit, instruction bit 31, fills bits 31:12. -/
def sext12 (imm : BitVec 12) : Word := imm.signExtend 32

/-- What Decode latches for a word (R66, R93): every field of every word, and the two register values. -/
def decodedRecord (s : State) (w : Word) : DecodedRecord :=
  { opcode := opcodeOf w, rd := rdOf w, funct3 := funct3Of w,
    rs1v := s.readReg (rs1Of w), rs2v := s.readReg (rs2Of w),
    imm := immOf w, funct7 := funct7Of w, shamt := shamtOf w }

/-- A Decoded Instruction Record has a result the spec gives: it is ALU-class and of the ADD/SUB group (R96, R97). -/
def hasResult (d : DecodedRecord) : Bool := isAluClass d.opcode && d.funct3 == 0

/-- The ALU result of a record that has one (R96). -/
def aluResult (alt : AltBit) (d : DecodedRecord) : Word :=
  if isRegisterForm d.opcode then
    if isAlternate alt d.imm then d.rs1v - d.rs2v else d.rs1v + d.rs2v
  else d.rs1v + sext12 d.imm

end Sys2Proof.Machine
end

