-- ==== Sys2Proof/Machine/Stages.lean ====
section
/-! DEFINITION. The pipeline-stage engine, cycle by cycle (spec/40_pipeline_stages.md R85 to R107), and the instruction slot
of five cycles as one operation (R108, R109). -/

namespace Sys2Proof.Machine

/-- The outcome of a cycle, a slot or a step. -/
abbrev Result := Host.Outcome State Fault Refusal

/-! ## The five stages: `compute()` -/

/-- The phase in which Write-Back is active (R87). -/
def writeBackPhase (c : Config) : Phase :=
  match c.wbPhase with
  | .writeBack => .writeBack
  | .memoryAccess => .memoryAccess

/-- IF `compute()` (R91). A failing bus read leaves the stage before either assignment. -/
def computeIF (s : State) : Except Fault State :=
  if s.phase = .fetch then
    match busRead s s.pc with
    | .error f => .error f
    | .ok w => .ok { s with ifStage := { s.ifStage with nxt := { pc := s.pc + 4, instr := w } } }
  else .ok s

/-- DE `compute()` (R93). -/
def computeDE (s : State) : State :=
  if s.phase = .decode then
    { s with deStage := { s.deStage with nxt := decodedRecord s s.ifStage.cur.instr } }
  else s

/-- EX `compute()` (R95, R96). A record without a result takes the next free value (R97); the counter moves on with the
latch, so that a second `compute()` changes nothing (R103). -/
def computeEX (s : State) : State :=
  if s.phase = .execute then
    let d := s.deStage.cur
    if hasResult d then
      { s with exStage := { s.exStage with nxt :=
          { aluResult := aluResult s.cfg.altBit d, rd := d.rd, isAluOp := isAluClass d.opcode } } }
    else
      { s with
          exStage := { s.exStage with nxt :=
            { aluResult := Config.freeWord s.draws.cur, rd := d.rd, isAluOp := isAluClass d.opcode } }
          draws := { s.draws with nxt := s.draws.cur + 1 } }
  else s

/-- MA `compute()` (R99): the record goes on unchanged; no bus access. -/
def computeMA (s : State) : State :=
  if s.phase = .memoryAccess then { s with maStage := { s.maStage with nxt := s.exStage.cur } } else s

/-- What Write-Back does with a record (R100): the register write, guarded by the ALU-class flag and `rd != 0`. -/
def State.commit (s : State) (r : ExecRecord) : State :=
  if r.isAluOp && r.rd != 0 then s.writeReg r.rd r.aluResult else s

/-- WB `compute()` (R100): the register write happens here, at once, not at the latch. -/
def computeWB (s : State) : State :=
  if s.phase = writeBackPhase s.cfg then s.commit s.maStage.cur else s

/-! ## The five stages: `latchNext()` (R86) -/

/-- The latch point of one pair: the next value becomes current. -/
def Latch.advance {α : Type} (l : Latch α) : Latch α := { l with cur := l.nxt }

/-- IF `latchNext()` (R92). -/
def latchIF (s : State) : State := { s with ifStage := s.ifStage.advance }
/-- DE `latchNext()` (R94). -/
def latchDE (s : State) : State := { s with deStage := s.deStage.advance }
/-- EX `latchNext()` (R98), and the model's own draw counter with it. -/
def latchEX (s : State) : State := { s with exStage := s.exStage.advance, draws := s.draws.advance }
/-- MA `latchNext()` (R99). -/
def latchMA (s : State) : State := { s with maStage := s.maStage.advance }
/-- WB `latchNext()` (R101): WB has no latched state. -/
def latchWB (s : State) : State := s

/-! ## The cycle -/

/-- The phase variable's successor (R22, R90). -/
def Phase.succ : Phase → Phase
  | .fetch => .decode
  | .decode => .execute
  | .execute => .memoryAccess
  | .memoryAccess => .writeBack
  | .writeBack => .fetch

/-- The phase advance (R90). -/
def advancePhase (s : State) : State := { s with phase := s.phase.succ }

/-- The four `compute()` calls after IF's, in stage order (R88). -/
def computeRest (s : State) : State := computeWB (computeMA (computeEX (computeDE s)))

/-- The five `latchNext()` calls, in stage order (R88). -/
def latchAll (s : State) : State := latchWB (latchMA (latchEX (latchDE (latchIF s))))

/-- One `cycle()` (R88): five `compute()`, five `latchNext()`, the phase advance. A condition raised by IF abandons the
cycle (R107); a Faulted machine does nothing and reports its condition again (R147). -/
def cycle (s : State) : Result :=
  match s.status with
  | .faulted f => .fault f
  | .running =>
    match computeIF s with
    | .error f => .fault f
    | .ok t => .next (advancePhase (latchAll (computeRest t)))

/-- A number of `cycle()` calls, stopping at the first that fails. -/
def runCycles : Nat → State → Result
  | 0, s => .next s
  | n + 1, s =>
    match cycle s with
    | .next t => runCycles n t
    | .fault f => .fault f
    | .refused r => .refused r

/-- The cycles from here to the end of the instruction slot (R89, R108): five at its beginning. -/
def cyclesLeft : Phase → Nat
  | .fetch => 5
  | .decode => 4
  | .execute => 3
  | .memoryAccess => 2
  | .writeBack => 1

/-- Finishes a slot that is open, cycle by cycle (R108 "ends inside a slot"). -/
def finishOpenSlot (s : State) : Result := runCycles (cyclesLeft s.phase) s

/-! ## The instruction slot as one operation -/

/-- The record that is committed in the slot of an instruction whose own record is `r` (R108, R109): its own by default;
with `WB_PHASE = MemoryAccess` the one MA still holds, that of the instruction before. -/
def State.retiring (s : State) (r : ExecRecord) : ExecRecord :=
  match s.cfg.wbPhase with
  | .writeBack => r
  | .memoryAccess => s.maStage.cur

/-- The state after the slot of word `w`, whose Execution Result Record is `r`, with the draw counter at `n`
(R108, R109): the program counter moved on by 4, the retiring record committed, and every latch holding this
instruction. The operands in `w` and `r` are those of the state before. -/
def State.afterSlot (s : State) (w : Word) (r : ExecRecord) (n : Nat) : State :=
  { s.commit (s.retiring r) with
      ifStage := Latch.both { pc := s.pc + 4, instr := w }
      deStage := Latch.both (decodedRecord s w)
      exStage := Latch.both r
      maStage := Latch.both r
      draws := Latch.both n }

/-- The slot of an instruction with a result the spec gives (R110). -/
def slotWithResult (i : Instr) (rd : RegIx) (v : Word) (s : State) : Result :=
  .next (s.afterSlot (encode i) { aluResult := v, rd := rd, isAluOp := true } s.draws.cur)

/-- The slot of an ALU-class instruction without one (R117): the result is the next free value. -/
def slotWithFreeResult (i : Instr) (rd : RegIx) (s : State) : Result :=
  .next (s.afterSlot (encode i) { aluResult := Config.freeWord s.draws.cur, rd := rd, isAluOp := true } (s.draws.cur + 1))

/-- The slot of a non-ALU-class instruction (R122): no flag, so no register write of its own. `EX.rd` is assigned all
the same, and `EX.aluResult` is a free value (R97). -/
def slotWithoutResult (i : Instr) (s : State) : Result :=
  .next (s.afterSlot (encode i)
    { aluResult := Config.freeWord s.draws.cur, rd := rdOf (encode i), isAluOp := false } (s.draws.cur + 1))

end Sys2Proof.Machine
end

