-- ==== Sys2Proof/Machine/AddSub.lean ====
section
/-! DEFINITION. The ADD/SUB family (spec/41_alu_add_sub.md): the three instructions with a result. -/

namespace Sys2Proof.Machine

/-- ADDI (R111): `x[rs1] + sext_12(imm)` modulo 2^32. -/
def execAddi (rd rs1 : RegIx) (imm : BitVec 12) (s : State) : Result :=
  slotWithResult (.addi rd rs1 imm) rd (s.readReg rs1 + sext12 imm) s

/-- ADD (R112): `x[rs1] + x[rs2]` modulo 2^32. -/
def execAdd (rd rs1 rs2 : RegIx) (funct7 : BitVec 7) (s : State) : Result :=
  slotWithResult (.add rd rs1 rs2 funct7) rd (s.readReg rs1 + s.readReg rs2) s

/-- SUB (R113): `x[rs1] - x[rs2]` modulo 2^32. -/
def execSub (rd rs1 rs2 : RegIx) (funct7 : BitVec 7) (s : State) : Result :=
  slotWithResult (.sub rd rs1 rs2 funct7) rd (s.readReg rs1 - s.readReg rs2) s

end Sys2Proof.Machine
end

