-- ==== Sys2Proof/Machine/NoOps.lean ====
section
/-! DEFINITION. The twenty-two rows of non-ALU-class words (spec/42_other_words.md R122 to R133): only the program counter
advances. -/

namespace Sys2Proof.Machine

/-- NOP.LOAD (R122, R123). -/
def execNopLoad (other : BitVec 25) (s : State) : Result := slotWithoutResult (.nopLoad other) s

/-- NOP.STORE (R122, R124). -/
def execNopStore (other : BitVec 25) (s : State) : Result := slotWithoutResult (.nopStore other) s

/-- NOP.BRANCH (R122, R125). -/
def execNopBranch (other : BitVec 25) (s : State) : Result := slotWithoutResult (.nopBranch other) s

/-- NOP.JAL (R122, R126). -/
def execNopJal (other : BitVec 25) (s : State) : Result := slotWithoutResult (.nopJal other) s

/-- NOP.JALR (R122, R127). -/
def execNopJalr (other : BitVec 25) (s : State) : Result := slotWithoutResult (.nopJalr other) s

/-- NOP.LUI (R122, R128). -/
def execNopLui (other : BitVec 25) (s : State) : Result := slotWithoutResult (.nopLui other) s

/-- NOP.AUIPC (R122, R129). -/
def execNopAuipc (other : BitVec 25) (s : State) : Result := slotWithoutResult (.nopAuipc other) s

/-- NOP.MISC-MEM (R122, R130). -/
def execNopMiscMem (other : BitVec 25) (s : State) : Result := slotWithoutResult (.nopMiscMem other) s

/-- NOP.SYSTEM (R122, R131). -/
def execNopSystem (other : BitVec 25) (s : State) : Result := slotWithoutResult (.nopSystem other) s

/-- NOP.LOAD-FP (R122, R133). -/
def execNopLoadFp (other : BitVec 25) (s : State) : Result := slotWithoutResult (.nopLoadFp other) s

/-- NOP.STORE-FP (R122, R133). -/
def execNopStoreFp (other : BitVec 25) (s : State) : Result := slotWithoutResult (.nopStoreFp other) s

/-- NOP.AMO (R122, R133). -/
def execNopAmo (other : BitVec 25) (s : State) : Result := slotWithoutResult (.nopAmo other) s

/-- NOP.OP-IMM-32 (R122, R133). -/
def execNopOpImm32 (other : BitVec 25) (s : State) : Result := slotWithoutResult (.nopOpImm32 other) s

/-- NOP.OP-32 (R122, R133). -/
def execNopOp32 (other : BitVec 25) (s : State) : Result := slotWithoutResult (.nopOp32 other) s

/-- NOP.MADD (R122, R133). -/
def execNopMadd (other : BitVec 25) (s : State) : Result := slotWithoutResult (.nopMadd other) s

/-- NOP.MSUB (R122, R133). -/
def execNopMsub (other : BitVec 25) (s : State) : Result := slotWithoutResult (.nopMsub other) s

/-- NOP.NMSUB (R122, R133). -/
def execNopNmsub (other : BitVec 25) (s : State) : Result := slotWithoutResult (.nopNmsub other) s

/-- NOP.NMADD (R122, R133). -/
def execNopNmadd (other : BitVec 25) (s : State) : Result := slotWithoutResult (.nopNmadd other) s

/-- NOP.OP-FP (R122, R133). -/
def execNopOpFp (other : BitVec 25) (s : State) : Result := slotWithoutResult (.nopOpFp other) s

/-- NOP.ZERO_WORD (R122, R132). -/
def execNopZeroWord (s : State) : Result := slotWithoutResult .nopZeroWord s

/-- NOP.ONES_WORD (R122, R132). -/
def execNopOnesWord (s : State) : Result := slotWithoutResult .nopOnesWord s

/-- NOP.OTHER (R122). -/
def execNopOther (word : Word) (s : State) : Result := slotWithoutResult (.nopOther word) s

end Sys2Proof.Machine
end

