-- ==== Sys2Proof/Machine/Unimplemented.lean ====
section
/-! DEFINITION. The fourteen unimplemented ALU-class positions (spec/42_other_words.md R117 to R121): `x[rd]` becomes a free
value when `rd` is not 0. -/

namespace Sys2Proof.Machine

/-- UNDEF.OPIMM.001 (R117, R118). -/
def execUndefOpimm001 (rd : RegIx) (other : BitVec 17) (s : State) : Result :=
  slotWithFreeResult (.undefOpimm001 rd other) rd s

/-- UNDEF.OPIMM.010 (R117, R118). -/
def execUndefOpimm010 (rd : RegIx) (other : BitVec 17) (s : State) : Result :=
  slotWithFreeResult (.undefOpimm010 rd other) rd s

/-- UNDEF.OPIMM.011 (R117, R118). -/
def execUndefOpimm011 (rd : RegIx) (other : BitVec 17) (s : State) : Result :=
  slotWithFreeResult (.undefOpimm011 rd other) rd s

/-- UNDEF.OPIMM.100 (R117, R118). -/
def execUndefOpimm100 (rd : RegIx) (other : BitVec 17) (s : State) : Result :=
  slotWithFreeResult (.undefOpimm100 rd other) rd s

/-- UNDEF.OPIMM.101 (R117, R118). -/
def execUndefOpimm101 (rd : RegIx) (other : BitVec 17) (s : State) : Result :=
  slotWithFreeResult (.undefOpimm101 rd other) rd s

/-- UNDEF.OPIMM.110 (R117, R118). -/
def execUndefOpimm110 (rd : RegIx) (other : BitVec 17) (s : State) : Result :=
  slotWithFreeResult (.undefOpimm110 rd other) rd s

/-- UNDEF.OPIMM.111 (R117, R118). -/
def execUndefOpimm111 (rd : RegIx) (other : BitVec 17) (s : State) : Result :=
  slotWithFreeResult (.undefOpimm111 rd other) rd s

/-- UNDEF.OP.001 (R117, R119). -/
def execUndefOp001 (rd : RegIx) (other : BitVec 17) (s : State) : Result :=
  slotWithFreeResult (.undefOp001 rd other) rd s

/-- UNDEF.OP.010 (R117, R119). -/
def execUndefOp010 (rd : RegIx) (other : BitVec 17) (s : State) : Result :=
  slotWithFreeResult (.undefOp010 rd other) rd s

/-- UNDEF.OP.011 (R117, R119). -/
def execUndefOp011 (rd : RegIx) (other : BitVec 17) (s : State) : Result :=
  slotWithFreeResult (.undefOp011 rd other) rd s

/-- UNDEF.OP.100 (R117, R119). -/
def execUndefOp100 (rd : RegIx) (other : BitVec 17) (s : State) : Result :=
  slotWithFreeResult (.undefOp100 rd other) rd s

/-- UNDEF.OP.101 (R117, R119). -/
def execUndefOp101 (rd : RegIx) (other : BitVec 17) (s : State) : Result :=
  slotWithFreeResult (.undefOp101 rd other) rd s

/-- UNDEF.OP.110 (R117, R119). -/
def execUndefOp110 (rd : RegIx) (other : BitVec 17) (s : State) : Result :=
  slotWithFreeResult (.undefOp110 rd other) rd s

/-- UNDEF.OP.111 (R117, R119). -/
def execUndefOp111 (rd : RegIx) (other : BitVec 17) (s : State) : Result :=
  slotWithFreeResult (.undefOp111 rd other) rd s

end Sys2Proof.Machine
end

