-- ==== Sys2Proof/Machine/Dispatch.lean ====
section
/-! DEFINITION. The meaning of every instruction: one arm per constructor. -/

namespace Sys2Proof.Machine

/-- The net effect of an instruction's slot on a machine at a slot boundary (R108, R109). -/
def exec (i : Instr) (s : State) : Host.Outcome State Fault Refusal :=
  match i with
  -- the ADD/SUB family (R111 to R113)
  | .addi rd rs1 imm => Sys2Proof.Machine.execAddi rd rs1 imm s
  | .add rd rs1 rs2 funct7 => Sys2Proof.Machine.execAdd rd rs1 rs2 funct7 s
  | .sub rd rs1 rs2 funct7 => Sys2Proof.Machine.execSub rd rs1 rs2 funct7 s
  -- the unimplemented ALU-class positions (R117)
  | .undefOpimm001 rd other => Sys2Proof.Machine.execUndefOpimm001 rd other s
  | .undefOpimm010 rd other => Sys2Proof.Machine.execUndefOpimm010 rd other s
  | .undefOpimm011 rd other => Sys2Proof.Machine.execUndefOpimm011 rd other s
  | .undefOpimm100 rd other => Sys2Proof.Machine.execUndefOpimm100 rd other s
  | .undefOpimm101 rd other => Sys2Proof.Machine.execUndefOpimm101 rd other s
  | .undefOpimm110 rd other => Sys2Proof.Machine.execUndefOpimm110 rd other s
  | .undefOpimm111 rd other => Sys2Proof.Machine.execUndefOpimm111 rd other s
  | .undefOp001 rd other => Sys2Proof.Machine.execUndefOp001 rd other s
  | .undefOp010 rd other => Sys2Proof.Machine.execUndefOp010 rd other s
  | .undefOp011 rd other => Sys2Proof.Machine.execUndefOp011 rd other s
  | .undefOp100 rd other => Sys2Proof.Machine.execUndefOp100 rd other s
  | .undefOp101 rd other => Sys2Proof.Machine.execUndefOp101 rd other s
  | .undefOp110 rd other => Sys2Proof.Machine.execUndefOp110 rd other s
  | .undefOp111 rd other => Sys2Proof.Machine.execUndefOp111 rd other s
  -- the non-ALU-class words (R122)
  | .nopLoad other => Sys2Proof.Machine.execNopLoad other s
  | .nopStore other => Sys2Proof.Machine.execNopStore other s
  | .nopBranch other => Sys2Proof.Machine.execNopBranch other s
  | .nopJal other => Sys2Proof.Machine.execNopJal other s
  | .nopJalr other => Sys2Proof.Machine.execNopJalr other s
  | .nopLui other => Sys2Proof.Machine.execNopLui other s
  | .nopAuipc other => Sys2Proof.Machine.execNopAuipc other s
  | .nopMiscMem other => Sys2Proof.Machine.execNopMiscMem other s
  | .nopSystem other => Sys2Proof.Machine.execNopSystem other s
  | .nopLoadFp other => Sys2Proof.Machine.execNopLoadFp other s
  | .nopStoreFp other => Sys2Proof.Machine.execNopStoreFp other s
  | .nopAmo other => Sys2Proof.Machine.execNopAmo other s
  | .nopOpImm32 other => Sys2Proof.Machine.execNopOpImm32 other s
  | .nopOp32 other => Sys2Proof.Machine.execNopOp32 other s
  | .nopMadd other => Sys2Proof.Machine.execNopMadd other s
  | .nopMsub other => Sys2Proof.Machine.execNopMsub other s
  | .nopNmsub other => Sys2Proof.Machine.execNopNmsub other s
  | .nopNmadd other => Sys2Proof.Machine.execNopNmadd other s
  | .nopOpFp other => Sys2Proof.Machine.execNopOpFp other s
  | .nopZeroWord => Sys2Proof.Machine.execNopZeroWord s
  | .nopOnesWord => Sys2Proof.Machine.execNopOnesWord s
  | .nopOther word => Sys2Proof.Machine.execNopOther word s

end Sys2Proof.Machine
end

