-- ==== Sys2Proof/Machine/Step.lean ====
section
/-! DEFINITION. One step of the machine: one instruction slot (R108; log entry 11). -/

namespace Sys2Proof.Machine

/-- One step. A Faulted machine reports its condition again (R147). At a slot boundary the fetched instruction's slot
runs whole, or the fetch's condition stops the machine (R62, R146). A slot that is open, which only single `cycle()`
calls leave, is finished. -/
def step (s : State) : Host.Outcome State Fault Refusal :=
  match s.status with
  | .faulted f => .fault f
  | .running =>
    match s.phase with
    | .fetch =>
      match fetchInstr s with
      | .error f => .fault f
      | .ok i => exec i s
    | .decode => finishOpenSlot s
    | .execute => finishOpenSlot s
    | .memoryAccess => finishOpenSlot s
    | .writeBack => finishOpenSlot s

/-- A state with an instruction placed where the next step fetches it (log entry 13): its word, the bits above `nbits`
zero, stored at the program counter, and the machine Running at the beginning of a slot. -/
def State.withFetchWord (s : State) (nbits w : Nat) : State :=
  { s with
      mem := s.mem.setWord s.pc.toNat (BitVec.ofNat 32 (w % 2 ^ nbits))
      phase := .fetch
      status := .running }

end Sys2Proof.Machine
end

