-- ==== Sys2Proof/Machine/Driver.lean ====
section
/-! DEFINITION. What the host may do to the machine between cycles, and when (spec/70_reset_and_hazards.md R160 to R169).
First the effect of each interaction on the machine, then `hostMove`, which offers an interaction only at the times the
table of R166 allows it: a load outside a run, a preload before its first cycle, a cycle not after a load that no reset
has followed. What the spec gives no meaning (R166, R167; spec/93 U10, U11) is refused by name (log entry 14). -/

namespace Sys2Proof.Machine

/-- The launch contents of the registers x1 to x31 and of RAM (R10, R34, R35). A RAM list shorter than the RAM leaves the
rest zero and a longer one is cut (log entry 5). -/
structure LaunchParams where
  regInit : Vector Word 31
  ramInit : List Word
  deriving DecidableEq, Repr

/-- Reset (R160, R161): everything but ROM and the deployment returns to its launch value, from any status. The draw
counter, which is the model's own, goes on, so that free values of two runs stay unrelated. -/
def hostReset (p : LaunchParams) (s : State) : State :=
  { State.initial s.cfg with
      regs := p.regInit
      mem := (s.mem.clear s.cfg.ramBase s.cfg.ramSize).setWords s.cfg.ramBase (p.ramInit.take (s.cfg.ramSize / 4))
      draws := Latch.both s.draws.cur }

/-- Boot (R163): construct the machine of a deployment, load the image, reset. -/
def launch (c : Config) (image : List Word) (p : LaunchParams) : Except Fault State :=
  match romLoad (State.initial c) image with
  | .error f => .error f
  | .ok s => .ok (hostReset p s)

/-- What a `cycle()` call leaves the host with: the machine, and the condition the call raised if it failed. -/
structure CycleReport where
  machine : State
  raised  : Option Fault
  deriving DecidableEq, Repr

/-- A `cycle()` call as the host sees it (R88, R147): when it fails the machine becomes Faulted and is otherwise as it
was; on a Faulted machine it does nothing and reports the same condition. -/
def hostCycle (s : State) : CycleReport :=
  match cycle s with
  | .next t => { machine := t, raised := none }
  | .fault f => { machine := s.takeFault f, raised := some f }
  | .refused _ => { machine := s, raised := none }

/-- Inspection of a register (R169): no effect on the machine. -/
def hostInspectReg (s : State) (i : RegIx) : Word := s.readReg i

/-- Inspection of a bus address (R64): no effect on the machine, a bad address fails to the host. -/
def hostInspectBus (s : State) (a : Word) : Except Fault Word := busRead s a

/-! ## When the host may act (R164, R166 to R168)

How far a run has come is the host's knowledge and no state of the core (R13, R166 "the host is assumed"), so it stands
beside the machine and not in `State`. -/

/-- Where the host is in its runs. -/
inductive RunProgress where
  /-- Constructed or reset, and no `cycle()` since: before the first cycle of a run (R163). -/
  | fresh
  /-- A `cycle()` has been called since reset: a run is in progress. -/
  | underWay
  /-- The run has ended: the host has stopped calling `cycle()`, or a cycle has failed (R164). -/
  | ended
  /-- An image was loaded after a run and no reset has followed (R167). -/
  | reloaded
  deriving DecidableEq, Repr

/-- The machine and where its host is. -/
structure Session where
  machine : State
  run     : RunProgress
  deriving DecidableEq, Repr

/-- Why the model offers the host no move (R166, R167). Safe: the spec gives such an action no meaning. -/
inductive HostRefusal where
  /-- A load while a run is in progress (R43, R166). Raised by `hostLoad`; safe. -/
  | loadInRun
  /-- A register or RAM preload that does not come before the first cycle of a run (R166, R168, U10). Raised by
  `hostPreloadReg` and `hostPreloadRam`; safe. -/
  | preloadAfterFirstCycle
  /-- A `cycle()` after a load that no reset has followed (R167, U11). Raised by `hostRunCycle`; safe. -/
  | cycleAfterLoad
  deriving DecidableEq, Repr

/-- What the host is told. -/
inductive HostAnswer where
  | done
  /-- The Word that was inspected (R169). -/
  | word (w : Word)
  /-- The condition the interaction failed with (R145, R147, R64). -/
  | condition (f : Fault)
  deriving DecidableEq, Repr

/-- What an allowed interaction leaves. -/
structure HostReport where
  session : Session
  answer  : HostAnswer
  deriving DecidableEq, Repr

/-- A load comes only before or between runs (R43, R166). -/
def RunProgress.allowsLoad : RunProgress → Bool
  | .fresh => true
  | .underWay => false
  | .ended => true
  | .reloaded => true

/-- Before a run a load may come after the reset as well as before it (R163); after a run a reset has to follow (R167). -/
def RunProgress.afterLoad : RunProgress → RunProgress
  | .fresh => .fresh
  | .underWay => .reloaded
  | .ended => .reloaded
  | .reloaded => .reloaded

/-- A preload comes after the reset and before the first cycle (R163, R166, R168). -/
def RunProgress.allowsPreload : RunProgress → Bool
  | .fresh => true
  | .underWay => false
  | .ended => false
  | .reloaded => false

/-- Nothing but a load that no reset has followed stands in the way of cycling a Running machine (R166, R167): a host
that cycles on after it had stopped is in the same run again (R164). -/
def RunProgress.allowsCycle : RunProgress → Bool
  | .fresh => true
  | .underWay => true
  | .ended => true
  | .reloaded => false

/-- The host stops calling `cycle()` (R164): a run that is under way has ended. -/
def RunProgress.afterStop : RunProgress → RunProgress
  | .fresh => .fresh
  | .underWay => .ended
  | .ended => .ended
  | .reloaded => .reloaded

/-- An interaction that the model offers. -/
def Session.answers (h : Session) (a : HostAnswer) : Except HostRefusal HostReport :=
  .ok { session := h, answer := a }

/-- The machine of a deployment right after construction (R163 "construct it, which is the same"). -/
def Session.constructed (c : Config) : Session := { machine := State.initial c, run := .fresh }

/-- `ROM.load` by the host (R166, R167). A load that fails leaves everything as it was (R43, R145). -/
def hostLoad (image : List Word) (h : Session) : Except HostRefusal HostReport :=
  if h.run.allowsLoad then
    match romLoad h.machine image with
    | .error f => h.answers (.condition f)
    | .ok t => Session.answers { machine := t, run := h.run.afterLoad } .done
  else .error .loadInRun

/-- Register preload, through the write port (R168). -/
def hostPreloadReg (i : RegIx) (v : Word) (h : Session) : Except HostRefusal HostReport :=
  if h.run.allowsPreload then Session.answers { h with machine := h.machine.writeReg i v } .done
  else .error .preloadAfterFirstCycle

/-- RAM preload, through the bus (R168). -/
def hostPreloadRam (a v : Word) (h : Session) : Except HostRefusal HostReport :=
  if h.run.allowsPreload then
    match busWrite h.machine a v with
    | .error f => h.answers (.condition f)
    | .ok t => Session.answers { h with machine := t } .done
  else .error .preloadAfterFirstCycle

/-- A `cycle()` call (R88, R147, R166). A Faulted machine does nothing and reports its condition, whatever was loaded. -/
def hostRunCycle (h : Session) : Except HostRefusal HostReport :=
  match h.machine.status with
  | .faulted f => h.answers (.condition f)
  | .running =>
    if h.run.allowsCycle then
      match (hostCycle h.machine).raised with
      | none => Session.answers { machine := (hostCycle h.machine).machine, run := .underWay } .done
      | some f => Session.answers { machine := (hostCycle h.machine).machine, run := .ended } (.condition f)
    else .error .cycleAfterLoad

/-- The host's interactions (R166), and `stop`, its decision to call `cycle()` no more (R164). -/
inductive HostMove where
  | reset (p : LaunchParams)
  | load (image : List Word)
  | preloadReg (i : RegIx) (v : Word)
  | preloadRam (a v : Word)
  | cycle
  | stop
  | inspectReg (i : RegIx)
  | inspectBus (a : Word)
  deriving DecidableEq, Repr

/-- What the host may do, and when (R166): a report, or a refusal of what the spec gives no meaning. -/
def hostMove (m : HostMove) (h : Session) : Except HostRefusal HostReport :=
  match m with
  | .reset p => Session.answers { machine := hostReset p h.machine, run := .fresh } .done
  | .load image => hostLoad image h
  | .preloadReg i v => hostPreloadReg i v h
  | .preloadRam a v => hostPreloadRam a v h
  | .cycle => hostRunCycle h
  | .stop => Session.answers { h with run := h.run.afterStop } .done
  | .inspectReg i => h.answers (.word (hostInspectReg h.machine i))
  | .inspectBus a =>
    match hostInspectBus h.machine a with
    | .ok w => h.answers (.word w)
    | .error f => h.answers (.condition f)

end Sys2Proof.Machine
end

