-- ==== Sys2Proof/Safety.lean ====
section
/-! DEFINITION. The states a run can be in, in the terms the statements use. -/

namespace Sys2Proof.Machine

/-- Every current/next pair agrees, as it does between cycles (R105). -/
abbrev State.Settled (s : State) : Prop :=
  s.ifStage.nxt = s.ifStage.cur ∧ s.deStage.nxt = s.deStage.cur ∧ s.exStage.nxt = s.exStage.cur ∧
  s.maStage.nxt = s.maStage.cur ∧ s.draws.nxt = s.draws.cur

/-- The beginning of an instruction slot of a machine that has not failed (R108). -/
abbrev State.AtSlotStart (s : State) : Prop := s.status = .running ∧ s.phase = .fetch

/-- A Decoded Instruction Record holds the fields of a word (R66). The register values are those of the Decode cycle and
are not among them. -/
abbrev DecodedRecord.FieldsOf (d : DecodedRecord) (w : Word) : Prop :=
  d.opcode = opcodeOf w ∧ d.rd = rdOf w ∧ d.funct3 = funct3Of w ∧ d.imm = immOf w ∧ d.funct7 = funct7Of w ∧
  d.shamt = shamtOf w

/-- The chain of records: outside the phase that is about to renew it, each stage's record is that of the stage before
it (R93, R95, R99). -/
abbrev State.Chained (s : State) : Prop :=
  (s.phase ≠ .decode → s.deStage.cur.FieldsOf s.ifStage.cur.instr) ∧
  (s.phase ≠ .execute →
    s.exStage.cur.rd = s.deStage.cur.rd ∧ s.exStage.cur.isAluOp = isAluClass s.deStage.cur.opcode) ∧
  (s.phase ≠ .memoryAccess → s.maStage.cur = s.exStage.cur)

/-- Storage is listed in its canonical form, and only where a device is mapped (R40, R41). -/
abbrev State.StorageOk (s : State) : Prop :=
  s.mem.wf = true ∧ ∀ c ∈ s.mem, inRom s.cfg c.1 = true ∨ inRam s.cfg c.1 = true

/-- A Faulted machine stopped at a fetch from its program counter (R107, R146, R147). -/
def State.statusOk (s : State) : Bool :=
  match s.status with
  | .running => true
  | .faulted f => decide (f = .unmappedAddress s.pc .read ∧ s.phase = .fetch)

/-- What holds of the machine between any two cycles of a run, whatever the deployment and the program. -/
abbrev State.Inv (s : State) : Prop :=
  s.cfg.Admissible ∧ s.StorageOk ∧ aligned s.pc = true ∧ s.Settled ∧ s.Chained ∧ s.statusOk = true

/-- The program counter, the phase, the status and every stage latch are as reset leaves them (R38): no cycle has been run
since. The registers and storage may have been preloaded. -/
abbrev State.AtLaunch (s : State) : Prop :=
  s.ifStage = Latch.both { pc := BitVec.ofNat 32 s.cfg.romBase, instr := 0 } ∧
  s.deStage = Latch.both DecodedRecord.zero ∧ s.exStage = Latch.both ExecRecord.zero ∧
  s.maStage = Latch.both ExecRecord.zero ∧ s.phase = .fetch ∧ s.status = .running

/-- What holds of the machine and its host between any two interactions: a run that has not begun is at its launch state,
and the run of a Faulted machine is over (R163, R164). -/
abbrev Session.Ok (h : Session) : Prop :=
  h.machine.Inv ∧ (h.run = .fresh → h.machine.AtLaunch) ∧ (h.run = .underWay → h.machine.status = .running)

/-- A number of steps, stopping at the first that does not answer a next state. -/
def runSteps : Nat → State → Result
  | 0, s => .next s
  | n + 1, s =>
    match step s with
    | .next t => runSteps n t
    | .fault f => .fault f
    | .refused r => .refused r

/-- What no instruction's slot changes: the deployment, every byte of storage, the status, the phase (R52, R90, R134). -/
abbrev SurroundingsKept (s t : State) : Prop :=
  t.cfg = s.cfg ∧ (∀ a, t.mem.byteAt a = s.mem.byteAt a) ∧ t.mem = s.mem ∧ t.status = s.status ∧ t.phase = s.phase

/-- The whole effect of ADDI, ADD and SUB with the default `WB_PHASE` (R110): the instruction completes, `x[rd]` holds
`v` unless `rd` is 0, every other register is as before, the program counter has moved on by 4, and no free value was
drawn. -/
def WritesResult (i : Instr) (rd : RegIx) (v : Word) (s : State) : Prop :=
  ∃ t, exec i s = .next t ∧
    (∀ j, t.readReg j = if j = rd ∧ rd ≠ 0 then v else s.readReg j) ∧
    t.pc = s.pc + 4 ∧ SurroundingsKept s t ∧ t.draws.cur = s.draws.cur

/-- The whole effect of an unimplemented ALU-class word with the default `WB_PHASE` (R117): as above with a free value,
whose number no later instruction draws again. -/
def WritesFreeWord (i : Instr) (rd : RegIx) (s : State) : Prop :=
  ∃ t, exec i s = .next t ∧
    (∀ j, t.readReg j = if j = rd ∧ rd ≠ 0 then Config.freeWord s.draws.cur else s.readReg j) ∧
    t.pc = s.pc + 4 ∧ SurroundingsKept s t ∧ t.draws.cur = s.draws.cur + 1

/-- The whole effect of a non-ALU-class word with the default `WB_PHASE` (R122): no register is written, no memory is
written, none is read (a machine with other storage does the same), and the program counter has moved on by 4. -/
def OnlyPcAdvances (i : Instr) (s : State) : Prop :=
  ∃ t, exec i s = .next t ∧ (∀ j, t.readReg j = s.readReg j) ∧ t.pc = s.pc + 4 ∧ SurroundingsKept s t ∧
    ∀ m : Memory, exec i { s with mem := m } = .next { t with mem := m }

/-- Every word of a row, given by mask and match, decodes to the row's instruction with the word's own operands, whatever
`ALT_BIT` is (R84). -/
def RowDecodes (mask bits : Word) (f : Word → Instr) : Prop :=
  ∀ alt w, w &&& mask = bits → decode alt w = f w

end Sys2Proof.Machine
end

