-- ==== Sys2Proof/Certificates/Slice0/Obligations.lean ====
section
/-! DEFINITION. The statements for the provers. Each formalises rules of spec/, which OBLIGATIONS.json cites, and holds for
every deployment (`State.cfg`) unless it names one. The default `WB_PHASE` is `.writeBack`; what happens under the other
value has statements of its own. `Config.freeWord` has no body, so a statement that names it holds for all its values. -/

open Sys2Proof Sys2Proof.Machine

/-- For either ALT_BIT and every well-formed instruction i of every row, with every operand at every value its field
admits, decode (encode i) = i: no bit of an encoding is dropped. -/
def Obligations.DecodeInvertsEncode : Prop :=
  ∀ (alt : AltBit) (i : Instr), i.wf alt = true → decode alt (encode i) = i

/-- For either ALT_BIT every 32-bit word decodes to a well-formed instruction whose word is that word, and exec answers
a next state for every instruction in every state: neither decoding nor executing raises a condition. -/
def Obligations.EveryWordIsAcceptedAndExecutes : Prop :=
  (∀ (alt : AltBit) (w : Word), (decode alt w).wf alt = true ∧ encode (decode alt w) = w) ∧
  ∀ (i : Instr) (s : State), ∃ t, exec i s = .next t

/-- For either ALT_BIT and every word, the mnemonic of the decoded instruction is that of the first row (in ascending
priority) whose mask and match the word meets; for ALT_BIT = 30 the ADD and SUB rows have their alternate constants. -/
def Obligations.DecoderFollowsOpcodeTable : Prop :=
  ∀ (alt : AltBit) (w : Word), tableMnemonic alt w = some (mnemonicOf (decode alt w))

/-- The words 0xFFF08193, 0x00208233, 0x602082B3, 0x0020F1B3, 0x00409193, 0x0000A183, 0x123451B7, 0x00000000, 0xFFFFFFFF
and 0x00000001 decode as the spec says, for either ALT_BIT. -/
def Obligations.SpecExampleWordsDecode : Prop :=
  ∀ alt : AltBit,
    decode alt 0xFFF08193#32 = .addi 3 1 0xFFF ∧ decode alt 0x00208233#32 = .add 4 1 2 0x00 ∧
    decode alt 0x602082B3#32 = .sub 5 1 2 0x30 ∧ decode alt 0x0020F1B3#32 = .undefOp111 3 0x00041 ∧
    decode alt 0x00409193#32 = .undefOpimm001 3 0x00081 ∧ decode alt 0x0000A183#32 = .nopLoad 0x0000143 ∧
    decode alt 0x123451B7#32 = .nopLui 0x02468A3 ∧ decode alt 0x00000000#32 = .nopZeroWord ∧
    decode alt 0xFFFFFFFF#32 = .nopOnesWord ∧ decode alt 0x00000001#32 = .nopOther 0x00000001

/-- For either ALT_BIT, a word with opcode 0110011 and funct3 000 decodes to SUB exactly when its bit ALT_BIT is 1 and
to ADD exactly when it is 0, with the word's own fields as operands; nothing else of bits 31:25 is looked at. -/
def Obligations.AltBitAloneTellsSubFromAdd : Prop :=
  ∀ (alt : AltBit) (w : Word), opcodeOf w = 0b0110011#7 → funct3Of w = 0b000#3 →
    (w.getLsbD alt.index = true ↔ decode alt w = .sub (rdOf w) (rs1Of w) (rs2Of w) (funct7Of w)) ∧
    (w.getLsbD alt.index = false ↔ decode alt w = .add (rdOf w) (rs1Of w) (rs2Of w) (funct7Of w))

/-- sext_12 of a field below 2048 is the field, of any other the field plus 0xFFFFF000, and has the field's signed
value; Decode latches the field unextended, and the result of an immediate-form record is rs1v plus the extended
field. -/
def Obligations.ImmediateIsSignExtendedInExecute : Prop :=
  (∀ v : BitVec 12,
      (sext12 v).toNat = (if v.toNat < 2048 then v.toNat else v.toNat + 0xFFFFF000) ∧ (sext12 v).toInt = v.toInt) ∧
  (∀ (s : State) (w : Word), (decodedRecord s w).imm = w.extractLsb' 20 12) ∧
  ∀ (alt : AltBit) (d : DecodedRecord), d.opcode = 0b0010011#7 → aluResult alt d = d.rs1v + sext12 d.imm

/-- Every word matching 0x00000013 under mask 0x0000707F is ADDI with that word's rd, rs1 and imm; with the default
WB_PHASE ADDI completes in every state, x[rd] holds (x[rs1] + sext_12(imm)) mod 2^32 unless rd is 0, every other
register, storage, the status and the phase are unchanged and pc has advanced by 4. -/
def Obligations.AddiAddsTheSignExtendedImmediate : Prop :=
  RowDecodes 0x0000707F 0x00000013 (fun w => .addi (rdOf w) (rs1Of w) (immOf w)) ∧
  ∀ (rd rs1 : RegIx) (imm : BitVec 12) (s : State), s.cfg.wbPhase = .writeBack →
    WritesResult (.addi rd rs1 imm) rd (s.readReg rs1 + sext12 imm) s

/-- Every word matching 0x00000033 under the mask of ALT_BIT is ADD with that word's operands; with the default WB_PHASE
ADD completes in every state, x[rd] holds (x[rs1] + x[rs2]) mod 2^32 unless rd is 0, everything else is unchanged
but pc, which has advanced by 4; the other bits of funct7 do not matter. -/
def Obligations.AddAddsTheSourceRegisters : Prop :=
  (∀ w : Word, w &&& 0x2000707F = 0x00000033 → decode .bit29 w = .add (rdOf w) (rs1Of w) (rs2Of w) (funct7Of w)) ∧
  (∀ w : Word, w &&& 0x4000707F = 0x00000033 → decode .bit30 w = .add (rdOf w) (rs1Of w) (rs2Of w) (funct7Of w)) ∧
  ∀ (rd rs1 rs2 : RegIx) (funct7 : BitVec 7) (s : State), s.cfg.wbPhase = .writeBack →
    WritesResult (.add rd rs1 rs2 funct7) rd (s.readReg rs1 + s.readReg rs2) s

/-- Every word matching SUB's constants for its ALT_BIT is SUB with that word's operands; with the default WB_PHASE SUB
completes in every state, x[rd] holds (x[rs1] - x[rs2]) mod 2^32 unless rd is 0, everything else is unchanged but
pc, which has advanced by 4; the other bits of funct7 do not matter. -/
def Obligations.SubSubtractsTheSourceRegisters : Prop :=
  (∀ w : Word, w &&& 0x2000707F = 0x20000033 → decode .bit29 w = .sub (rdOf w) (rs1Of w) (rs2Of w) (funct7Of w)) ∧
  (∀ w : Word, w &&& 0x4000707F = 0x40000033 → decode .bit30 w = .sub (rdOf w) (rs1Of w) (rs2Of w) (funct7Of w)) ∧
  ∀ (rd rs1 rs2 : RegIx) (funct7 : BitVec 7) (s : State), s.cfg.wbPhase = .writeBack →
    WritesResult (.sub rd rs1 rs2 funct7) rd (s.readReg rs1 - s.readReg rs2) s

/-- Every word of the seven positions UNDEF.OPIMM.001 to .111 decodes to its row; with the default WB_PHASE each
completes in every state, x[rd] holds the next free value unless rd is 0, the draw counter moves on so that the
value is never drawn again, everything else is unchanged but pc, which has advanced by 4. -/
def Obligations.UnimplementedImmediateFormWritesAFreeWord : Prop :=
  RowDecodes 0x0000707F 0x00001013 (fun w => .undefOpimm001 (rdOf w) (upper17Of w)) ∧
  RowDecodes 0x0000707F 0x00002013 (fun w => .undefOpimm010 (rdOf w) (upper17Of w)) ∧
  RowDecodes 0x0000707F 0x00003013 (fun w => .undefOpimm011 (rdOf w) (upper17Of w)) ∧
  RowDecodes 0x0000707F 0x00004013 (fun w => .undefOpimm100 (rdOf w) (upper17Of w)) ∧
  RowDecodes 0x0000707F 0x00005013 (fun w => .undefOpimm101 (rdOf w) (upper17Of w)) ∧
  RowDecodes 0x0000707F 0x00006013 (fun w => .undefOpimm110 (rdOf w) (upper17Of w)) ∧
  RowDecodes 0x0000707F 0x00007013 (fun w => .undefOpimm111 (rdOf w) (upper17Of w)) ∧
  ∀ (rd : RegIx) (other : BitVec 17) (s : State), s.cfg.wbPhase = .writeBack →
    WritesFreeWord (.undefOpimm001 rd other) rd s ∧
    WritesFreeWord (.undefOpimm010 rd other) rd s ∧
    WritesFreeWord (.undefOpimm011 rd other) rd s ∧
    WritesFreeWord (.undefOpimm100 rd other) rd s ∧
    WritesFreeWord (.undefOpimm101 rd other) rd s ∧
    WritesFreeWord (.undefOpimm110 rd other) rd s ∧
    WritesFreeWord (.undefOpimm111 rd other) rd s

/-- Every word of the seven positions UNDEF.OP.001 to .111 decodes to its row; with the default WB_PHASE each completes
in every state, x[rd] holds the next free value unless rd is 0, the draw counter moves on so that the value is never
drawn again, everything else is unchanged but pc, which has advanced by 4. -/
def Obligations.UnimplementedRegisterFormWritesAFreeWord : Prop :=
  RowDecodes 0x0000707F 0x00001033 (fun w => .undefOp001 (rdOf w) (upper17Of w)) ∧
  RowDecodes 0x0000707F 0x00002033 (fun w => .undefOp010 (rdOf w) (upper17Of w)) ∧
  RowDecodes 0x0000707F 0x00003033 (fun w => .undefOp011 (rdOf w) (upper17Of w)) ∧
  RowDecodes 0x0000707F 0x00004033 (fun w => .undefOp100 (rdOf w) (upper17Of w)) ∧
  RowDecodes 0x0000707F 0x00005033 (fun w => .undefOp101 (rdOf w) (upper17Of w)) ∧
  RowDecodes 0x0000707F 0x00006033 (fun w => .undefOp110 (rdOf w) (upper17Of w)) ∧
  RowDecodes 0x0000707F 0x00007033 (fun w => .undefOp111 (rdOf w) (upper17Of w)) ∧
  ∀ (rd : RegIx) (other : BitVec 17) (s : State), s.cfg.wbPhase = .writeBack →
    WritesFreeWord (.undefOp001 rd other) rd s ∧
    WritesFreeWord (.undefOp010 rd other) rd s ∧
    WritesFreeWord (.undefOp011 rd other) rd s ∧
    WritesFreeWord (.undefOp100 rd other) rd s ∧
    WritesFreeWord (.undefOp101 rd other) rd s ∧
    WritesFreeWord (.undefOp110 rd other) rd s ∧
    WritesFreeWord (.undefOp111 rd other) rd s

/-- Every word of these five opcodes decodes to its row, and with the default WB_PHASE each completes in every state
with no register written, no memory read or written, and pc advanced by 4 whatever the operands. -/
def Obligations.LoadStoreAndJumpWordsAreNoOps : Prop :=
  RowDecodes 0x0000007F 0x00000003 (fun w => .nopLoad (upper25Of w)) ∧
  RowDecodes 0x0000007F 0x00000023 (fun w => .nopStore (upper25Of w)) ∧
  RowDecodes 0x0000007F 0x00000063 (fun w => .nopBranch (upper25Of w)) ∧
  RowDecodes 0x0000007F 0x0000006F (fun w => .nopJal (upper25Of w)) ∧
  RowDecodes 0x0000007F 0x00000067 (fun w => .nopJalr (upper25Of w)) ∧
  ∀ (other : BitVec 25) (s : State), s.cfg.wbPhase = .writeBack →
    OnlyPcAdvances (.nopLoad other) s ∧
    OnlyPcAdvances (.nopStore other) s ∧
    OnlyPcAdvances (.nopBranch other) s ∧
    OnlyPcAdvances (.nopJal other) s ∧
    OnlyPcAdvances (.nopJalr other) s

/-- Every word of these four opcodes decodes to its row, and with the default WB_PHASE each completes in every state
with no register written, no memory read or written, no transfer of control, and pc advanced by 4. -/
def Obligations.UpperImmediateFenceAndSystemWordsAreNoOps : Prop :=
  RowDecodes 0x0000007F 0x00000037 (fun w => .nopLui (upper25Of w)) ∧
  RowDecodes 0x0000007F 0x00000017 (fun w => .nopAuipc (upper25Of w)) ∧
  RowDecodes 0x0000007F 0x0000000F (fun w => .nopMiscMem (upper25Of w)) ∧
  RowDecodes 0x0000007F 0x00000073 (fun w => .nopSystem (upper25Of w)) ∧
  ∀ (other : BitVec 25) (s : State), s.cfg.wbPhase = .writeBack →
    OnlyPcAdvances (.nopLui other) s ∧
    OnlyPcAdvances (.nopAuipc other) s ∧
    OnlyPcAdvances (.nopMiscMem other) s ∧
    OnlyPcAdvances (.nopSystem other) s

/-- Every word of the ten other labelled opcodes decodes to its row, and with the default WB_PHASE each completes in
every state with no register written, no memory read or written, and pc advanced by 4. -/
def Obligations.RemainingLabelledOpcodesAreNoOps : Prop :=
  RowDecodes 0x0000007F 0x00000007 (fun w => .nopLoadFp (upper25Of w)) ∧
  RowDecodes 0x0000007F 0x00000027 (fun w => .nopStoreFp (upper25Of w)) ∧
  RowDecodes 0x0000007F 0x0000002F (fun w => .nopAmo (upper25Of w)) ∧
  RowDecodes 0x0000007F 0x0000001B (fun w => .nopOpImm32 (upper25Of w)) ∧
  RowDecodes 0x0000007F 0x0000003B (fun w => .nopOp32 (upper25Of w)) ∧
  RowDecodes 0x0000007F 0x00000043 (fun w => .nopMadd (upper25Of w)) ∧
  RowDecodes 0x0000007F 0x00000047 (fun w => .nopMsub (upper25Of w)) ∧
  RowDecodes 0x0000007F 0x0000004B (fun w => .nopNmsub (upper25Of w)) ∧
  RowDecodes 0x0000007F 0x0000004F (fun w => .nopNmadd (upper25Of w)) ∧
  RowDecodes 0x0000007F 0x00000053 (fun w => .nopOpFp (upper25Of w)) ∧
  ∀ (other : BitVec 25) (s : State), s.cfg.wbPhase = .writeBack →
    OnlyPcAdvances (.nopLoadFp other) s ∧
    OnlyPcAdvances (.nopStoreFp other) s ∧
    OnlyPcAdvances (.nopAmo other) s ∧
    OnlyPcAdvances (.nopOpImm32 other) s ∧
    OnlyPcAdvances (.nopOp32 other) s ∧
    OnlyPcAdvances (.nopMadd other) s ∧
    OnlyPcAdvances (.nopMsub other) s ∧
    OnlyPcAdvances (.nopNmsub other) s ∧
    OnlyPcAdvances (.nopNmadd other) s ∧
    OnlyPcAdvances (.nopOpFp other) s

/-- 0x00000000 and 0xFFFFFFFF decode to their rows, any other word whose opcode no row names decodes to NOP.OTHER, and
with the default WB_PHASE each completes in every state with no register written, no memory read or written, and pc
advanced by 4. -/
def Obligations.ZeroOnesAndUnlabelledWordsAreNoOps : Prop :=
  (∀ alt : AltBit, decode alt 0x00000000#32 = .nopZeroWord ∧ decode alt 0xFFFFFFFF#32 = .nopOnesWord) ∧
  (∀ (alt : AltBit) (w : Word), w ≠ 0 → w ≠ 0xFFFFFFFF#32 → opcodeOf w ∉ namedOpcodes → decode alt w = .nopOther w) ∧
  ∀ (w : Word) (s : State), s.cfg.wbPhase = .writeBack →
    OnlyPcAdvances .nopZeroWord s ∧ OnlyPcAdvances .nopOnesWord s ∧ OnlyPcAdvances (.nopOther w) s

/-- With the default WB_PHASE, every instruction of every row whose word has rd = 0 completes in every state with every
register as before and pc advanced by 4. -/
def Obligations.ZeroDestinationWritesNoRegister : Prop :=
  ∀ (i : Instr) (s : State), s.cfg.wbPhase = .writeBack → rdOf (encode i) = 0 →
    ∃ t, exec i s = .next t ∧ (∀ j, t.readReg j = s.readReg j) ∧ t.pc = s.pc + 4

/-- For every instruction, in every state, exec's next state has the same bytes of storage, deployment, status and
phase, x0 reads 0, and every register but the destination retired in the slot (the instruction's own rd by default,
the rd pending in MA with WB_PHASE = MemoryAccess) is unchanged; with WB_PHASE = MemoryAccess every register is
unchanged when the record pending in MA is not ALU-class. -/
def Obligations.FrameOfEveryInstruction : Prop :=
  ∀ (i : Instr) (s t : State), exec i s = .next t →
    SurroundingsKept s t ∧ t.readReg 0 = 0 ∧
    (s.cfg.wbPhase = .writeBack → ∀ j, j ≠ rdOf (encode i) → t.readReg j = s.readReg j) ∧
    (s.cfg.wbPhase = .memoryAccess → ∀ j, j ≠ s.maStage.cur.rd → t.readReg j = s.readReg j) ∧
    (s.cfg.wbPhase = .memoryAccess → s.maStage.cur.isAluOp = false → ∀ j, t.readReg j = s.readReg j)

/-- For every well-formed instruction, in every state, exec's next state has, in both halves of each pair, the word and
the advanced pc in IF, the word's fields and the old values of its two source registers in DE, and in EX and in MA
the word's rd, its ALU class and, where the spec gives a result, that result. -/
def Obligations.LatchesHoldTheRetiredInstruction : Prop :=
  ∀ (i : Instr) (s : State), i.wf s.cfg.altBit = true →
    ∃ t, exec i s = .next t ∧ t.Settled ∧ t.ifStage.cur = { pc := s.pc + 4, instr := encode i } ∧
      t.deStage.cur.FieldsOf (encode i) ∧
      t.deStage.cur.rs1v = s.readReg (rs1Of (encode i)) ∧ t.deStage.cur.rs2v = s.readReg (rs2Of (encode i)) ∧
      t.exStage.cur.rd = rdOf (encode i) ∧ t.exStage.cur.isAluOp = isAluClass (opcodeOf (encode i)) ∧
      (hasResult t.deStage.cur = true → t.exStage.cur.aluResult = aluResult s.cfg.altBit t.deStage.cur) ∧
      t.maStage = t.exStage

/-- At the start of a slot of a Running machine, when the bus answers w at the program counter, step is exec of w's
decoding in that very state; nothing is added around it. When the bus raises a condition, step stops with that
condition. -/
def Obligations.StepRunsTheFetchedInstruction : Prop :=
  ∀ s : State, s.AtSlotStart →
    (∀ w, busRead s s.pc = .ok w → step s = exec (decode s.cfg.altBit w) s) ∧
    (∀ f, busRead s s.pc = .error f → step s = .fault f)

/-- At the start of a slot of a Running machine whose bus answers w at pc, with the default WB_PHASE: step completes, pc
has advanced by 4, storage is unchanged, and the registers are as the pseudocode gives from w's bits: x[rd], if rd
is not 0 and the opcode is ALU-class, holds the sum with the sign-extended immediate, the difference or the sum of
the sources by w[5] and w[ALT_BIT], or a free value when funct3 is not 0; nothing else changes. -/
def Obligations.StepIsTheInstructionLevelStep : Prop :=
  ∀ (s : State) (w : Word), s.AtSlotStart → s.cfg.wbPhase = .writeBack → busRead s s.pc = .ok w →
    ∃ t, step s = .next t ∧ t.pc = s.pc + 4 ∧ SurroundingsKept s t ∧
      ∀ j, t.readReg j =
        if opcodeOf w &&& 0x5F = 0x13 ∧ j = rdOf w ∧ rdOf w ≠ 0 then
          if funct3Of w = 0 then
            if w.getLsbD 5 = false then s.readReg (rs1Of w) + sext12 (immOf w)
            else if w.getLsbD s.cfg.altBit.index then s.readReg (rs1Of w) - s.readReg (rs2Of w)
            else s.readReg (rs1Of w) + s.readReg (rs2Of w)
          else Config.freeWord s.draws.cur
        else s.readReg j

/-- At the start of a slot of a Running machine whose bus answers w at pc, with WB_PHASE = MemoryAccess: step completes,
the only register change is the write of the record pending in MA when that is ALU-class with rd not 0, and the new
pending record is w's: its rd, its ALU class, and the result computed from the register values before that write (a
free value where the spec gives no result). -/
def Obligations.DelayedWriteBackRetiresThePreviousInstruction : Prop :=
  ∀ (s : State) (w : Word), s.AtSlotStart → s.cfg.wbPhase = .memoryAccess → busRead s s.pc = .ok w →
    ∃ t, step s = .next t ∧ t.pc = s.pc + 4 ∧ SurroundingsKept s t ∧
      (∀ j, t.readReg j =
        if s.maStage.cur.isAluOp = true ∧ j = s.maStage.cur.rd ∧ s.maStage.cur.rd ≠ 0 then s.maStage.cur.aluResult
        else s.readReg j) ∧
      t.maStage.cur =
        { aluResult :=
            if hasResult (decodedRecord s w) then aluResult s.cfg.altBit (decodedRecord s w)
            else Config.freeWord s.draws.cur
          rd := rdOf w
          isAluOp := isAluClass (opcodeOf w) }

/-- For every instruction, in every state with WB_PHASE = MemoryAccess, exec answers a next state with pc advanced by 4,
in which the only register change is the write of the record that was pending in MA, and the instruction's own word
is latched. -/
def Obligations.EveryInstructionCompletesUnderDelayedWriteBack : Prop :=
  ∀ (i : Instr) (s : State), s.cfg.wbPhase = .memoryAccess →
    ∃ t, exec i s = .next t ∧ t.pc = s.pc + 4 ∧ SurroundingsKept s t ∧ t.ifStage.cur.instr = encode i ∧
      t.maStage.cur.rd = rdOf (encode i) ∧
      ∀ j, t.readReg j =
        if s.maStage.cur.isAluOp = true ∧ j = s.maStage.cur.rd ∧ s.maStage.cur.rd ≠ 0 then s.maStage.cur.aluResult
        else s.readReg j

/-- From every state at a slot boundary whose pairs agree, whatever the deployment, 5n calls of cycle() give exactly
what n steps give: the same next state with every latch, or the same condition. That a step is a slot of five cycles is
the model's reading of R108 and R109 (log entry 11, DEDUCED). -/
def Obligations.StepsAreFiveCyclesEach : Prop :=
  ∀ (n : Nat) (s : State), s.Settled → s.phase = .fetch → runCycles (5 * n) s = runSteps n s

/-- From a Running machine inside a slot, step answers a next state at a slot boundary, Running, whose pairs agree, with
storage and deployment unchanged, and pc unchanged too when the pairs agreed before. That a step from inside a slot
finishes it is the model's own convention (log entry 11, DEDUCED). -/
def Obligations.OpenSlotIsFinishedWithoutAFault : Prop :=
  ∀ s : State, s.status = .running → s.phase ≠ .fetch →
    ∃ t, step s = .next t ∧ t.AtSlotStart ∧ t.cfg = s.cfg ∧ t.mem = s.mem ∧ t.Settled ∧
      (s.Settled → t.pc = s.pc)

/-- In a Fetch cycle of a Running machine whose pairs agree: when the bus answers w at pc, the cycle's next state has w
and pc + 4 in both halves of IF and the phase Decode and is otherwise the same state; when the bus raises a
condition the cycle fails with it. -/
def Obligations.FetchCycleReadsTheWordAtPc : Prop :=
  ∀ s : State, s.AtSlotStart → s.Settled →
    (∀ w, busRead s s.pc = .ok w →
      cycle s = .next { s with ifStage := Latch.both { pc := s.pc + 4, instr := w }, phase := .decode }) ∧
    (∀ f, busRead s s.pc = .error f → cycle s = .fault f)

/-- In a Decode cycle of a Running machine whose pairs agree, the next state has in both halves of DE the fields of the
fetched word by R93's bit ranges and the values read from its two source registers, the phase Execute, and is
otherwise the same state. -/
def Obligations.DecodeCycleLatchesFieldsAndOperands : Prop :=
  ∀ s : State, s.status = .running → s.phase = .decode → s.Settled →
    cycle s = .next { s with
      deStage := Latch.both
        { opcode := s.ifStage.cur.instr.extractLsb' 0 7
          rd := s.ifStage.cur.instr.extractLsb' 7 5
          funct3 := s.ifStage.cur.instr.extractLsb' 12 3
          rs1v := s.readReg (s.ifStage.cur.instr.extractLsb' 15 5)
          rs2v := s.readReg (s.ifStage.cur.instr.extractLsb' 20 5)
          imm := s.ifStage.cur.instr.extractLsb' 20 12
          funct7 := s.ifStage.cur.instr.extractLsb' 25 7
          shamt := s.ifStage.cur.instr.extractLsb' 20 5 }
      phase := .execute }

/-- In an Execute cycle of a Running machine whose pairs agree, the next state has in both halves of EX the record's rd,
the flag (opcode and 0x5F) = 0x13 and the result: the difference, the sum or the immediate sum by opcode bit 5 and
bit ALT_BIT - 20 of the immediate field for an ALU-class record of funct3 000, and a free value for every other; the
phase is MemoryAccess and all else is the same state but the model's draw counter. -/
def Obligations.ExecuteCycleComputesTheResultRecord : Prop :=
  ∀ s : State, s.status = .running → s.phase = .execute → s.Settled →
    ∃ t, cycle s = .next t ∧
      t = { s with
        exStage := Latch.both t.exStage.cur
        draws := Latch.both (if hasResult s.deStage.cur then s.draws.cur else s.draws.cur + 1)
        phase := .memoryAccess } ∧
      t.exStage.cur.rd = s.deStage.cur.rd ∧
      t.exStage.cur.isAluOp = decide (s.deStage.cur.opcode &&& 0b1011111#7 = 0b0010011#7) ∧
      t.exStage.cur.aluResult =
        if s.deStage.cur.opcode &&& 0b1011111#7 = 0b0010011#7 ∧ s.deStage.cur.funct3 = 0b000#3 then
          if s.deStage.cur.opcode.getLsbD 5 then
            if s.deStage.cur.imm.getLsbD (s.cfg.altBit.index - 20) then s.deStage.cur.rs1v - s.deStage.cur.rs2v
            else s.deStage.cur.rs1v + s.deStage.cur.rs2v
          else s.deStage.cur.rs1v + sext12 s.deStage.cur.imm
        else Config.freeWord s.draws.cur

/-- In a Memory-Access cycle of a Running machine whose pairs agree, the next state has EX's record in both halves of
MA, the phase WriteBack, storage unchanged, and the same registers unless Write-Back is wired to this phase, in
which case the record MA held before is committed. -/
def Obligations.MemoryAccessCycleForwardsTheRecord : Prop :=
  ∀ s : State, s.status = .running → s.phase = .memoryAccess → s.Settled →
    cycle s = .next { s with
      regs := if s.cfg.wbPhase = .memoryAccess then (s.commit s.maStage.cur).regs else s.regs
      maStage := Latch.both s.exStage.cur
      phase := .writeBack }

/-- In a cycle of a Running machine whose pairs agree, in the phase WB_PHASE names, every register after the cycle is
MA's aluResult if MA's flag is set, rd is not 0 and it is register rd, and is unchanged otherwise; in the phase
WriteBack nothing else changes but the phase, which becomes Fetch; in a phase that is not WB_PHASE's no register
changes. -/
def Obligations.WriteBackCycleWritesTheRegister : Prop :=
  ∀ s : State, s.status = .running → s.phase ≠ .fetch → s.Settled →
    ∃ t, cycle s = .next t ∧
      (∀ j, t.readReg j =
        if s.phase = writeBackPhase s.cfg ∧ s.maStage.cur.isAluOp = true ∧ s.maStage.cur.rd ≠ 0 ∧ j = s.maStage.cur.rd
        then s.maStage.cur.aluResult else s.readReg j) ∧
      (s.phase = .writeBack → t = { s with regs := t.regs, phase := .fetch })

/-- From every state a completed cycle leaves the phase's successor in the order Fetch, Decode, Execute, MemoryAccess,
WriteBack, Fetch; outside Fetch a Running machine's cycle always completes. -/
def Obligations.EveryCycleAdvancesThePhase : Prop :=
  (∀ s t : State, cycle s = .next t →
      t.phase = (match s.phase with
        | .fetch => .decode | .decode => .execute | .execute => .memoryAccess
        | .memoryAccess => .writeBack | .writeBack => .fetch)) ∧
  ∀ s : State, s.status = .running → s.phase ≠ .fetch → ∃ t, cycle s = .next t

/-- From every state, whether its pairs agree or not, a completed cycle leaves every pair with both halves equal; and
each stalled stage's current value has become its prior next value. -/
def Obligations.EveryPairAgreesAfterACycle : Prop :=
  ∀ s t : State, cycle s = .next t →
    t.Settled ∧
    (s.phase ≠ .fetch → t.ifStage.cur = s.ifStage.nxt) ∧ (s.phase ≠ .decode → t.deStage.cur = s.deStage.nxt) ∧
    (s.phase ≠ .execute → t.exStage.cur = s.exStage.nxt) ∧
    (s.phase ≠ .memoryAccess → t.maStage.cur = s.maStage.nxt)

/-- From every state whose pairs agree, a completed cycle changes no half of any pair of a stage whose phase it is not,
and changes the register file only in the phase Write-Back is wired to, for either WB_PHASE. -/
def Obligations.StalledStagesAreFrozen : Prop :=
  ∀ s t : State, s.Settled → cycle s = .next t →
    (s.phase ≠ .fetch → t.ifStage = s.ifStage) ∧ (s.phase ≠ .decode → t.deStage = s.deStage) ∧
    (s.phase ≠ .execute → t.exStage = s.exStage) ∧ (s.phase ≠ .memoryAccess → t.maStage = s.maStage) ∧
    (s.phase ≠ writeBackPhase s.cfg → t.regs = s.regs)

/-- For each of the five stages, in every state, a second compute() leaves what the first left, and the compute() of a
stalled stage leaves the state as it was. -/
def Obligations.RepeatedComputeChangesNothing : Prop :=
  ∀ s : State,
    (computeDE (computeDE s) = computeDE s ∧ computeEX (computeEX s) = computeEX s ∧
      computeMA (computeMA s) = computeMA s ∧ computeWB (computeWB s) = computeWB s ∧
      ∀ t, computeIF s = .ok t → computeIF t = .ok t) ∧
    (s.phase ≠ .fetch → computeIF s = .ok s) ∧ (s.phase ≠ .decode → computeDE s = s) ∧
    (s.phase ≠ .execute → computeEX s = s) ∧ (s.phase ≠ .memoryAccess → computeMA s = s) ∧
    (s.phase ≠ writeBackPhase s.cfg → computeWB s = s)

/-- When a cycle of a Running machine raises a condition, it was the bus's at pc in a Fetch cycle; the machine the host
is left with differs only in its status, Faulted with that condition; every further cycle() changes nothing and reports
the same condition; inspection of registers and bus shows the state before; and a reset makes it Running. That a failed
machine stays Faulted, does nothing at a further cycle() and reports the same condition until a reset is the reading
R147 marks as its own ("the terminal reading is this spec's choice", D11), which the model follows (log entry 12,
DESIGN CHOICE). -/
def Obligations.FailedCycleChangesOnlyTheStatus : Prop :=
  ∀ (s : State) (f : Fault), s.status = .running → cycle s = .fault f →
    s.phase = .fetch ∧ busRead s s.pc = .error f ∧
    hostCycle s = { machine := { s with status := .faulted f }, raised := some f } ∧
    hostCycle { s with status := .faulted f } = { machine := { s with status := .faulted f }, raised := some f } ∧
    (∀ i, hostInspectReg (hostCycle s).machine i = hostInspectReg s i) ∧
    (∀ a, hostInspectBus (hostCycle s).machine a = hostInspectBus s a) ∧
    ∀ p, (hostReset p (hostCycle s).machine).status = .running

/-- With an aligned pc, a step of a Running machine stops with a condition exactly when it is at a slot boundary and pc
is in neither range, and the condition is UnmappedAddress, a read, at pc; otherwise it answers a next state. -/
def Obligations.OnlyAnUnmappedFetchStopsTheCore : Prop :=
  ∀ s : State, s.status = .running → aligned s.pc = true →
    (∀ f, step s = .fault f ↔ (s.phase = .fetch ∧ route s.cfg s.pc = .unmapped ∧ f = .unmappedAddress s.pc .read)) ∧
    ((s.phase ≠ .fetch ∨ route s.cfg s.pc ≠ .unmapped) ↔ ∃ t, step s = .next t)

/-- In every state neither step nor cycle answers a refusal, and on a Faulted machine both answer the condition it
stopped with. That a Faulted machine answers its condition again is the terminal reading of R147 (D11; log entry 12,
DESIGN CHOICE). -/
def Obligations.NoStepIsRefused : Prop :=
  (∀ (s : State) (r : Refusal), step s ≠ .refused r ∧ cycle s ≠ .refused r) ∧
  ∀ (s : State) (f : Fault), s.status = .faulted f → step s = .fault f ∧ cycle s = .fault f

/-- In every state a bus read of a misaligned address raises UnalignedAccess; of an aligned address in the ROM range, or
else in the RAM range, it answers the word stored there; of any other it raises UnmappedAddress. After a load that
succeeds on an admissible map whose storage is in canonical form, word k of the ROM reads image word k, or 0 beyond
the image. -/
def Obligations.BusReadRoutesByAddress : Prop :=
  (∀ (s : State) (a : Word), busRead s a =
      if a.toNat % 4 ≠ 0 then .error (.unalignedAccess a .read)
      else if s.cfg.romBase ≤ a.toNat ∧ a.toNat < s.cfg.romBase + s.cfg.romSize then .ok (s.mem.wordAt a.toNat)
      else if s.cfg.ramBase ≤ a.toNat ∧ a.toNat < s.cfg.ramBase + s.cfg.ramSize then .ok (s.mem.wordAt a.toNat)
      else .error (.unmappedAddress a .read)) ∧
  ∀ (s t : State) (image : List Word), s.cfg.Admissible → s.mem.wf = true → romLoad s image = .ok t →
    ∀ k, k < s.cfg.romSize / 4 → busRead t (BitVec.ofNat 32 (s.cfg.romBase + 4 * k)) = .ok (image.getD k 0)

/-- In every state with an admissible map and canonical storage: a misaligned write raises UnalignedAccess, an aligned
one in ROM ReadOnly, in neither range UnmappedAddress; in RAM it succeeds, changes storage only, keeps it canonical,
that address then reads the word written, and every other aligned address reads as before. -/
def Obligations.BusWriteReachesRamOnly : Prop :=
  ∀ (s : State) (a v : Word), s.cfg.Admissible → s.mem.wf = true →
    (a.toNat % 4 ≠ 0 → busWrite s a v = .error (.unalignedAccess a .write)) ∧
    (a.toNat % 4 = 0 → route s.cfg a = .rom → busWrite s a v = .error (.readOnly a)) ∧
    (a.toNat % 4 = 0 → route s.cfg a = .unmapped → busWrite s a v = .error (.unmappedAddress a .write)) ∧
    (a.toNat % 4 = 0 → route s.cfg a = .ram →
      ∃ t, busWrite s a v = .ok t ∧ t = { s with mem := t.mem } ∧ t.mem.wf = true ∧ busRead t a = .ok v ∧
        ∀ b, b ≠ a → busRead t b = busRead s b)

/-- In every state with canonical storage each device operation raises UnalignedAccess for a misaligned address, else
OutOfRange for one outside its own range, else accesses the word at that address; a word written to RAM is the word
then read. That alignment is checked before the range is the choice of R46 (D10), which the model follows (log entry
15, DESIGN CHOICE). -/
def Obligations.DevicesCheckAlignmentThenTheirRange : Prop :=
  ∀ (s : State) (a v : Word), s.mem.wf = true →
    romRead s a = (if a.toNat % 4 ≠ 0 then .error (.unalignedAccess a .read)
      else if s.cfg.romBase ≤ a.toNat ∧ a.toNat < s.cfg.romBase + s.cfg.romSize then .ok (s.mem.wordAt a.toNat)
      else .error (.outOfRange a .read)) ∧
    ramRead s a = (if a.toNat % 4 ≠ 0 then .error (.unalignedAccess a .read)
      else if s.cfg.ramBase ≤ a.toNat ∧ a.toNat < s.cfg.ramBase + s.cfg.ramSize then .ok (s.mem.wordAt a.toNat)
      else .error (.outOfRange a .read)) ∧
    (a.toNat % 4 ≠ 0 → ramWrite s a v = .error (.unalignedAccess a .write)) ∧
    (a.toNat % 4 = 0 → ¬(s.cfg.ramBase ≤ a.toNat ∧ a.toNat < s.cfg.ramBase + s.cfg.ramSize) →
      ramWrite s a v = .error (.outOfRange a .write)) ∧
    (a.toNat % 4 = 0 → s.cfg.ramBase ≤ a.toNat ∧ a.toNat < s.cfg.ramBase + s.cfg.ramSize →
      ∃ t, ramWrite s a v = .ok t ∧ t = { s with mem := t.mem } ∧ ramRead t a = .ok v ∧
        ∀ b, b.toNat % 4 = 0 → b ≠ a → t.mem.wordAt b.toNat = s.mem.wordAt b.toNat)

/-- In every state with an admissible map and canonical storage: an image longer than ROM_SIZE/4 words fails with
ImageTooLarge; any other succeeds, changes storage only, ROM word k is image word k or 0 beyond the image whatever was
loaded before, and every RAM word is unchanged. That a load after another also fills the rest of the ROM with 0 is the
choice of D14, which the model follows (log entry 19, DESIGN CHOICE). -/
def Obligations.RomLoadReplacesTheImageOrFails : Prop :=
  ∀ (s : State) (image : List Word), s.cfg.Admissible → s.mem.wf = true →
    (s.cfg.romSize / 4 < image.length → romLoad s image = .error (.imageTooLarge image.length (s.cfg.romSize / 4))) ∧
    (image.length ≤ s.cfg.romSize / 4 →
      ∃ t, romLoad s image = .ok t ∧ t = { s with mem := t.mem } ∧ t.mem.wf = true ∧
        (∀ k, k < s.cfg.romSize / 4 → t.mem.wordAt (s.cfg.romBase + 4 * k) = image.getD k 0) ∧
        ∀ k, k < s.cfg.ramSize / 4 → t.mem.wordAt (s.cfg.ramBase + 4 * k) = s.mem.wordAt (s.cfg.ramBase + 4 * k))

/-- In every state index 0 reads 0, also after a write to it; a write to index 0 leaves the state as it was; a write to
any other index is what that index then reads, every other index reads as before, and nothing but the register file
changes. -/
def Obligations.RegisterPortsReadBackWhatIsWritten : Prop :=
  ∀ (s : State) (i j : RegIx) (v : Word),
    s.readReg 0 = 0 ∧ s.writeReg 0 v = s ∧
    (i ≠ 0 → (s.writeReg i v).readReg i = v) ∧ (j ≠ i → (s.writeReg i v).readReg j = s.readReg j) ∧
    s.writeReg i v = { s with regs := (s.writeReg i v).regs }

/-- For every deployment with an admissible map, every state of it with canonical storage, Faulted or not, and all
launch parameters that fit: after reset pc is ROM_BASE, the phase Fetch, IF.instr, DE, EX and MA zero with both
halves equal, the status Running, registers 1 to 31 hold REG_INIT, RAM words RAM_INIT, and every ROM word is what it
was. That RAM reads 0 beyond a list shorter than the RAM is the model's choice (log entry 5, DESIGN CHOICE): R35 gives
RAM_INIT for the whole RAM. -/
def Obligations.ResetLeavesTheLaunchState : Prop :=
  ∀ (p : LaunchParams) (s : State), s.cfg.Admissible → s.mem.wf = true → p.ramInit.length ≤ s.cfg.ramSize / 4 →
    let t := hostReset p s
    t.cfg = s.cfg ∧ t.ifStage.cur = { pc := BitVec.ofNat 32 s.cfg.romBase, instr := 0 } ∧ t.phase = .fetch ∧
    t.deStage.cur = DecodedRecord.zero ∧ t.exStage.cur = ExecRecord.zero ∧ t.maStage.cur = ExecRecord.zero ∧
    t.Settled ∧ t.status = .running ∧ (∀ i : RegIx, i ≠ 0 → t.readReg i = p.regInit[cellOf i]) ∧
    (∀ k, k < s.cfg.ramSize / 4 → t.mem.wordAt (s.cfg.ramBase + 4 * k) = p.ramInit.getD k 0) ∧
    (∀ k, k < s.cfg.romSize / 4 → t.mem.wordAt (s.cfg.romBase + 4 * k) = s.mem.wordAt (s.cfg.romBase + 4 * k))

/-- For every admissible deployment, every image that fits the ROM and all launch parameters, boot succeeds, and the
first step of the machine it leaves is exec of the decoding of image word 0 (of 0 when the image is empty). -/
def Obligations.FirstStepRunsImageWordZero : Prop :=
  ∀ (c : Config) (image : List Word) (p : LaunchParams), c.Admissible → image.length ≤ c.romSize / 4 →
    ∃ s, launch c image p = .ok s ∧ step s = exec (decode c.altBit (image.getD 0 0)) s

/-- In every state with canonical storage and an aligned mapped pc, the step after withFetchWord 32 w is exec of w's
decoding; withFetchWord is the model's stand-in for a program load (log entry 13). -/
def Obligations.PlacedWordIsTheNextToRun : Prop :=
  ∀ (s : State) (w : Nat), s.mem.wf = true → aligned s.pc = true → route s.cfg s.pc ≠ .unmapped →
    step (s.withFetchWord 32 w) = exec (decode s.cfg.altBit (BitVec.ofNat 32 w)) (s.withFetchWord 32 w)

/-- State.reset meets Inv: admissible map, canonical storage only where a device is mapped, aligned pc, agreeing pairs,
chained records, and no condition pending. That its registers and RAM are zero and its map the example deployment is
the model's choice (log entries 2 to 5). -/
def Obligations.ResetMeetsTheInvariant : Prop :=
  State.reset.Inv

/-- For every admissible deployment, image and launch parameters, the machine a successful boot leaves meets Inv, and so
does any machine that met it once it is reset. -/
def Obligations.LaunchMeetsTheInvariant : Prop :=
  (∀ (c : Config) (image : List Word) (p : LaunchParams) (s : State), c.Admissible → launch c image p = .ok s → s.Inv) ∧
  ∀ (p : LaunchParams) (s : State), s.Inv → (hostReset p s).Inv

/-- For every state s with Inv s, in whatever phase, if step s answers next t then Inv t: the map stays admissible,
storage canonical and mapped, pc aligned, every pair agrees, DE holds the fields of IF's word, EX the rd and class
of DE's record, MA the record of EX. -/
def Obligations.StepKeepsTheInvariant : Prop :=
  ∀ s t : State, s.Inv → step s = .next t → t.Inv

/-- For every state that meets Inv, Running or Faulted, the machine a cycle() call leaves the host with meets it: in
particular a Faulted machine stopped at the fetch from its own pc. -/
def Obligations.CycleCallKeepsTheInvariant : Prop :=
  ∀ s : State, s.Inv → (hostCycle s).machine.Inv

/-- On an admissible map, from storage in form, a successful bus write and a successful image load leave storage in
form. -/
def Obligations.HostWritesKeepStorageInForm : Prop :=
  ∀ s : State, s.cfg.Admissible → s.StorageOk →
    (∀ a v t, busWrite s a v = .ok t → t.StorageOk) ∧ ∀ image t, romLoad s image = .ok t → t.StorageOk

/-- In every state, a completed step or cycle leaves every byte of storage, every bus read and the deployment as they
were, and the status too. -/
def Obligations.NothingTheCoreDoesWritesMemory : Prop :=
  ∀ s t : State, (step s = .next t ∨ cycle s = .next t) →
    (∀ a, t.mem.byteAt a = s.mem.byteAt a) ∧ (∀ a, busRead t a = busRead s a) ∧ t.mem = s.mem ∧ t.cfg = s.cfg ∧
    t.status = s.status

/-- For every instruction and state, with any other storage contents exec answers the same next state but for those
contents. -/
def Obligations.NoInstructionReadsDataMemory : Prop :=
  ∀ (i : Instr) (s : State) (m : Memory),
    ∃ t, exec i s = .next t ∧ exec i { s with mem := m } = .next { t with mem := m }

/-- For every instruction and state, with any other contents of the IF stage exec answers a next state with the same
registers, decoded record and result records. -/
def Obligations.NoInstructionReadsTheProgramCounter : Prop :=
  ∀ (i : Instr) (s : State) (l : Latch FetchRecord),
    ∃ t u, exec i s = .next t ∧ exec i { s with ifStage := l } = .next u ∧
      u = { t with ifStage := u.ifStage } ∧ u.pc = l.cur.pc + 4 ∧ u.ifStage.cur.instr = t.ifStage.cur.instr

/-- From every state whose pairs agree, a completed cycle leaves pc + 4 modulo 2^32 if it was a Fetch cycle and pc
otherwise; a completed step from a slot boundary leaves pc + 4 whatever the word; an aligned pc stays aligned. -/
def Obligations.PcAdvancesByFourInFetchOnly : Prop :=
  (∀ s t : State, s.Settled → cycle s = .next t → t.pc = (if s.phase = .fetch then s.pc + 4 else s.pc)) ∧
  (∀ s t : State, s.AtSlotStart → step s = .next t →
    t.pc = s.pc + 4 ∧ t.pc.toNat = (s.pc.toNat + 4) % 2 ^ 32 ∧ (aligned s.pc = true → aligned t.pc = true))

/-- From every slot boundary of a Running machine, if n steps complete, the machine is at a slot boundary with pc
advanced by 4n modulo 2^32, whatever the words, and storage and deployment are as they were. -/
def Obligations.RunsAreStraightLines : Prop :=
  ∀ (n : Nat) (s t : State), s.AtSlotStart → runSteps n s = .next t →
    t.AtSlotStart ∧ t.pc = s.pc + BitVec.ofNat 32 (4 * n) ∧ t.mem = s.mem ∧ t.cfg = s.cfg

/-- From every slot boundary of a Running machine with aligned pc, if each of the n addresses pc, pc + 4, ... is mapped,
then n steps complete. -/
def Obligations.RunsCompleteWhileMapped : Prop :=
  ∀ (n : Nat) (s : State), s.AtSlotStart → aligned s.pc = true →
    (∀ k, k < n → route s.cfg (s.pc + BitVec.ofNat 32 (4 * k)) ≠ .unmapped) → ∃ t, runSteps n s = .next t

/-- From every slot boundary of a Running machine with aligned pc, if some aligned address is unmapped, there is a
number of steps, at most 2^30, after which the run has stopped with UnmappedAddress on a read of an aligned unmapped
address. -/
def Obligations.EveryRunEndsOffTheMap : Prop :=
  ∀ s : State, s.AtSlotStart → aligned s.pc = true → (∃ a, aligned a = true ∧ route s.cfg a = .unmapped) →
    ∃ n a, n ≤ 2 ^ 30 ∧ aligned a = true ∧ route s.cfg a = .unmapped ∧
      runSteps n s = .fault (.unmappedAddress a .read)

/-- With the default WB_PHASE, in every state: ADD rd, rs1, rs2 then SUB rd, rd, rs2 leaves x[rs1] in x[rd] when rd is
neither 0 nor rs2; ADDI rd, rs1, k then ADDI rd, rd, -k leaves x[rs1] in x[rd] when rd is not 0 and k is not -2048;
ADD with its sources exchanged leaves the same registers; SUB rd, rs1, rs1 leaves 0. -/
def Obligations.AddAndSubUndoEachOther : Prop :=
  ∀ (s : State) (rd rs1 rs2 : RegIx) (f g : BitVec 7) (k : BitVec 12), s.cfg.wbPhase = .writeBack → rd ≠ 0 →
    (rd ≠ rs2 → ∃ t u, exec (.add rd rs1 rs2 f) s = .next t ∧ exec (.sub rd rd rs2 g) t = .next u ∧
      u.readReg rd = s.readReg rs1) ∧
    (k ≠ 0x800#12 → ∃ t u, exec (.addi rd rs1 k) s = .next t ∧ exec (.addi rd rd (-k)) t = .next u ∧
      u.readReg rd = s.readReg rs1) ∧
    (∃ t u, exec (.add rd rs1 rs2 f) s = .next t ∧ exec (.add rd rs2 rs1 g) s = .next u ∧
      ∀ j, u.readReg j = t.readReg j) ∧
    (∃ t, exec (.sub rd rs1 rs1 g) s = .next t ∧ t.readReg rd = 0)

/-- For either ALT_BIT and every word whose opcode is ALU-class and whose funct3 is not 000, with the default WB_PHASE the
decoded instruction completes in every state: x[rd] holds the next free value unless rd is 0, the draw counter moves
on so that the value is never drawn again, everything else is unchanged but pc, which has advanced by 4. -/
def Obligations.EveryUnimplementedAluWordWritesAFreeWord : Prop :=
  ∀ (alt : AltBit) (w : Word) (s : State), s.cfg.wbPhase = .writeBack →
    opcodeOf w &&& 0x5F = 0x13 → funct3Of w ≠ 0 → WritesFreeWord (decode alt w) (rdOf w) s

/-- With the default WB_PHASE, when the bus answers a word whose opcode is not ALU-class at the pc of a Running machine at
a slot boundary with agreeing pairs: the step completes, five cycles give the same state, no register is written,
pc has advanced by 4, storage is neither read nor written, EX holds the word's rd and a false flag, and no
condition is raised. -/
def Obligations.EveryNonAluWordOnlyAdvancesPc : Prop :=
  ∀ (s : State) (w : Word), s.AtSlotStart → s.Settled → s.cfg.wbPhase = .writeBack → busRead s s.pc = .ok w →
    opcodeOf w &&& 0x5F ≠ 0x13 →
    OnlyPcAdvances (decode s.cfg.altBit w) s ∧
    ∃ t, step s = .next t ∧ runCycles 5 s = .next t ∧ exec (decode s.cfg.altBit w) s = .next t ∧
      (∀ j, t.readReg j = s.readReg j) ∧ t.pc = s.pc + 4 ∧ SurroundingsKept s t ∧
      t.exStage.cur.rd = rdOf w ∧ t.exStage.cur.isAluOp = false

/-- In every session: a reset is always allowed and makes the session fresh; a load is refused exactly while a run is under
way, its effect is that of romLoad, and after a run it calls for a reset; register and RAM preloads are refused except
before the first cycle, their effects are a register-port and a bus write; a cycle is refused exactly when the machine
is Running and a load has not been followed by a reset, and its effect is hostCycle's; inspection is always allowed and
changes nothing. From construction on every allowed interaction leaves the machine's invariant, a session before its
first cycle at its launch state, and a run under way with a Running machine. When a run has ended, that a preload comes
after the reset, and that what the spec gives no meaning is refused are the model's reading (log entry 14, DEDUCED). -/
def Obligations.HostActsOnlyWhenAllowed : Prop :=
  (∀ h : Session,
    (∀ p, hostMove (.reset p) h =
      .ok { session := { machine := hostReset p h.machine, run := .fresh }, answer := .done }) ∧
    (∀ image, hostMove (.load image) h = .error .loadInRun ↔ h.run = .underWay) ∧
    (∀ image t, h.run ≠ .underWay → romLoad h.machine image = .ok t → hostMove (.load image) h =
      .ok { session := { machine := t, run := if h.run = .fresh then .fresh else .reloaded }, answer := .done }) ∧
    (∀ image f, h.run ≠ .underWay → romLoad h.machine image = .error f →
      hostMove (.load image) h = .ok { session := h, answer := .condition f }) ∧
    (∀ i v, hostMove (.preloadReg i v) h = .error .preloadAfterFirstCycle ↔ h.run ≠ .fresh) ∧
    (∀ i v, h.run = .fresh → hostMove (.preloadReg i v) h =
      .ok { session := { h with machine := h.machine.writeReg i v }, answer := .done }) ∧
    (∀ a v, hostMove (.preloadRam a v) h = .error .preloadAfterFirstCycle ↔ h.run ≠ .fresh) ∧
    (∀ a v t, h.run = .fresh → busWrite h.machine a v = .ok t →
      hostMove (.preloadRam a v) h = .ok { session := { h with machine := t }, answer := .done }) ∧
    (∀ a v f, h.run = .fresh → busWrite h.machine a v = .error f →
      hostMove (.preloadRam a v) h = .ok { session := h, answer := .condition f }) ∧
    (hostMove .cycle h = .error .cycleAfterLoad ↔ (h.machine.status = .running ∧ h.run = .reloaded)) ∧
    (∀ r, hostMove .cycle h = .ok r → r.session.machine = (hostCycle h.machine).machine ∧
      r.answer = (match (hostCycle h.machine).raised with | none => .done | some f => .condition f)) ∧
    (∀ i, hostMove (.inspectReg i) h = .ok { session := h, answer := .word (h.machine.readReg i) }) ∧
    (∀ a, hostMove (.inspectBus a) h =
      .ok { session := h, answer := (match busRead h.machine a with | .ok w => .word w | .error f => .condition f) })) ∧
  (∀ c : Config, c.Admissible → (Session.constructed c).Ok) ∧
  ∀ (m : HostMove) (h : Session) (r : HostReport), h.Ok → hostMove m h = .ok r → r.session.Ok
end

