-- ==== Sys2Proof/Laws/State.lean ====
section
/-! SUPPORT. Every field after every update of the state, and the small lemmas of `Latch`, so that no proof unfolds a record
update. -/

namespace Sys2Proof.Machine

@[simp] theorem Latch.both_cur {α : Type} (a : α) : (Latch.both a).cur = a := rfl
@[simp] theorem Latch.both_nxt {α : Type} (a : α) : (Latch.both a).nxt = a := rfl
@[simp] theorem Latch.advance_cur {α : Type} (l : Latch α) : l.advance.cur = l.nxt := rfl
@[simp] theorem Latch.advance_nxt {α : Type} (l : Latch α) : l.advance.nxt = l.nxt := rfl

/-- A pair whose halves agree is the pair of its current half (R105). -/
theorem Latch.eq_both {α : Type} {l : Latch α} (h : l.nxt = l.cur) : l = Latch.both l.cur := by
  cases l; simp_all [Latch.both]

/-- The current half of the fetch pair is the program counter. -/
theorem State.ifStage_cur_pc (s : State) : s.ifStage.cur.pc = s.pc := rfl

/-! ### `writeReg` -/

@[simp] theorem writeReg_cfg (s : State) (i : RegIx) (v : Word) : (s.writeReg i v).cfg = s.cfg := by unfold State.writeReg; split <;> rfl
@[simp] theorem writeReg_ifStage (s : State) (i : RegIx) (v : Word) : (s.writeReg i v).ifStage = s.ifStage := by unfold State.writeReg; split <;> rfl
@[simp] theorem writeReg_deStage (s : State) (i : RegIx) (v : Word) : (s.writeReg i v).deStage = s.deStage := by unfold State.writeReg; split <;> rfl
@[simp] theorem writeReg_exStage (s : State) (i : RegIx) (v : Word) : (s.writeReg i v).exStage = s.exStage := by unfold State.writeReg; split <;> rfl
@[simp] theorem writeReg_maStage (s : State) (i : RegIx) (v : Word) : (s.writeReg i v).maStage = s.maStage := by unfold State.writeReg; split <;> rfl
@[simp] theorem writeReg_phase (s : State) (i : RegIx) (v : Word) : (s.writeReg i v).phase = s.phase := by unfold State.writeReg; split <;> rfl
@[simp] theorem writeReg_mem (s : State) (i : RegIx) (v : Word) : (s.writeReg i v).mem = s.mem := by unfold State.writeReg; split <;> rfl
@[simp] theorem writeReg_status (s : State) (i : RegIx) (v : Word) : (s.writeReg i v).status = s.status := by unfold State.writeReg; split <;> rfl
@[simp] theorem writeReg_draws (s : State) (i : RegIx) (v : Word) : (s.writeReg i v).draws = s.draws := by unfold State.writeReg; split <;> rfl

@[simp] theorem writeReg_pc (s : State) (i : RegIx) (v : Word) : (s.writeReg i v).pc = s.pc := by simp [State.pc]

/-! ### `commit` -/

@[simp] theorem commit_cfg (s : State) (r : ExecRecord) : (s.commit r).cfg = s.cfg := by unfold State.commit; split <;> simp
@[simp] theorem commit_ifStage (s : State) (r : ExecRecord) : (s.commit r).ifStage = s.ifStage := by unfold State.commit; split <;> simp
@[simp] theorem commit_deStage (s : State) (r : ExecRecord) : (s.commit r).deStage = s.deStage := by unfold State.commit; split <;> simp
@[simp] theorem commit_exStage (s : State) (r : ExecRecord) : (s.commit r).exStage = s.exStage := by unfold State.commit; split <;> simp
@[simp] theorem commit_maStage (s : State) (r : ExecRecord) : (s.commit r).maStage = s.maStage := by unfold State.commit; split <;> simp
@[simp] theorem commit_phase (s : State) (r : ExecRecord) : (s.commit r).phase = s.phase := by unfold State.commit; split <;> simp
@[simp] theorem commit_mem (s : State) (r : ExecRecord) : (s.commit r).mem = s.mem := by unfold State.commit; split <;> simp
@[simp] theorem commit_status (s : State) (r : ExecRecord) : (s.commit r).status = s.status := by unfold State.commit; split <;> simp
@[simp] theorem commit_draws (s : State) (r : ExecRecord) : (s.commit r).draws = s.draws := by unfold State.commit; split <;> simp

@[simp] theorem commit_pc (s : State) (r : ExecRecord) : (s.commit r).pc = s.pc := by simp [State.pc]

/-! ### `afterSlot` -/

@[simp] theorem afterSlot_cfg (s : State) (w : Word) (r : ExecRecord) (n : Nat) : (s.afterSlot w r n).cfg = s.cfg := by simp [State.afterSlot]
@[simp] theorem afterSlot_phase (s : State) (w : Word) (r : ExecRecord) (n : Nat) : (s.afterSlot w r n).phase = s.phase := by simp [State.afterSlot]
@[simp] theorem afterSlot_mem (s : State) (w : Word) (r : ExecRecord) (n : Nat) : (s.afterSlot w r n).mem = s.mem := by simp [State.afterSlot]
@[simp] theorem afterSlot_status (s : State) (w : Word) (r : ExecRecord) (n : Nat) : (s.afterSlot w r n).status = s.status := by simp [State.afterSlot]
@[simp] theorem afterSlot_regs (s : State) (w : Word) (r : ExecRecord) (n : Nat) :
    (s.afterSlot w r n).regs = (s.commit (s.retiring r)).regs := rfl
@[simp] theorem afterSlot_ifStage (s : State) (w : Word) (r : ExecRecord) (n : Nat) :
    (s.afterSlot w r n).ifStage = Latch.both { pc := s.pc + 4, instr := w } := rfl
@[simp] theorem afterSlot_deStage (s : State) (w : Word) (r : ExecRecord) (n : Nat) :
    (s.afterSlot w r n).deStage = Latch.both (decodedRecord s w) := rfl
@[simp] theorem afterSlot_exStage (s : State) (w : Word) (r : ExecRecord) (n : Nat) :
    (s.afterSlot w r n).exStage = Latch.both r := rfl
@[simp] theorem afterSlot_maStage (s : State) (w : Word) (r : ExecRecord) (n : Nat) :
    (s.afterSlot w r n).maStage = Latch.both r := rfl
@[simp] theorem afterSlot_draws (s : State) (w : Word) (r : ExecRecord) (n : Nat) :
    (s.afterSlot w r n).draws = Latch.both n := rfl
@[simp] theorem afterSlot_pc (s : State) (w : Word) (r : ExecRecord) (n : Nat) : (s.afterSlot w r n).pc = s.pc + 4 := rfl

/-! ### `takeFault` -/

@[simp] theorem takeFault_cfg (s : State) (f : Fault) : (s.takeFault f).cfg = s.cfg := rfl
@[simp] theorem takeFault_regs (s : State) (f : Fault) : (s.takeFault f).regs = s.regs := rfl
@[simp] theorem takeFault_ifStage (s : State) (f : Fault) : (s.takeFault f).ifStage = s.ifStage := rfl
@[simp] theorem takeFault_deStage (s : State) (f : Fault) : (s.takeFault f).deStage = s.deStage := rfl
@[simp] theorem takeFault_exStage (s : State) (f : Fault) : (s.takeFault f).exStage = s.exStage := rfl
@[simp] theorem takeFault_maStage (s : State) (f : Fault) : (s.takeFault f).maStage = s.maStage := rfl
@[simp] theorem takeFault_phase (s : State) (f : Fault) : (s.takeFault f).phase = s.phase := rfl
@[simp] theorem takeFault_mem (s : State) (f : Fault) : (s.takeFault f).mem = s.mem := rfl
@[simp] theorem takeFault_draws (s : State) (f : Fault) : (s.takeFault f).draws = s.draws := rfl

@[simp] theorem takeFault_status (s : State) (f : Fault) : (s.takeFault f).status = .faulted f := rfl

/-! ### `withFetchWord` -/

@[simp] theorem withFetchWord_cfg (s : State) (nbits w : Nat) : (s.withFetchWord nbits w).cfg = s.cfg := rfl
@[simp] theorem withFetchWord_regs (s : State) (nbits w : Nat) : (s.withFetchWord nbits w).regs = s.regs := rfl
@[simp] theorem withFetchWord_ifStage (s : State) (nbits w : Nat) : (s.withFetchWord nbits w).ifStage = s.ifStage := rfl
@[simp] theorem withFetchWord_deStage (s : State) (nbits w : Nat) : (s.withFetchWord nbits w).deStage = s.deStage := rfl
@[simp] theorem withFetchWord_exStage (s : State) (nbits w : Nat) : (s.withFetchWord nbits w).exStage = s.exStage := rfl
@[simp] theorem withFetchWord_maStage (s : State) (nbits w : Nat) : (s.withFetchWord nbits w).maStage = s.maStage := rfl
@[simp] theorem withFetchWord_draws (s : State) (nbits w : Nat) : (s.withFetchWord nbits w).draws = s.draws := rfl

@[simp] theorem withFetchWord_pc (s : State) (nbits w : Nat) : (s.withFetchWord nbits w).pc = s.pc := rfl
@[simp] theorem withFetchWord_phase (s : State) (nbits w : Nat) : (s.withFetchWord nbits w).phase = .fetch := rfl
@[simp] theorem withFetchWord_status (s : State) (nbits w : Nat) : (s.withFetchWord nbits w).status = .running := rfl
@[simp] theorem withFetchWord_mem (s : State) (nbits w : Nat) :
    (s.withFetchWord nbits w).mem = s.mem.setWord s.pc.toNat (BitVec.ofNat 32 (w % 2 ^ nbits)) := rfl

/-! ### `computeDE` -/

@[simp] theorem computeDE_cfg (s : State) : (computeDE s).cfg = s.cfg := by unfold computeDE; split <;> rfl
@[simp] theorem computeDE_regs (s : State) : (computeDE s).regs = s.regs := by unfold computeDE; split <;> rfl
@[simp] theorem computeDE_ifStage (s : State) : (computeDE s).ifStage = s.ifStage := by unfold computeDE; split <;> rfl
@[simp] theorem computeDE_exStage (s : State) : (computeDE s).exStage = s.exStage := by unfold computeDE; split <;> rfl
@[simp] theorem computeDE_maStage (s : State) : (computeDE s).maStage = s.maStage := by unfold computeDE; split <;> rfl
@[simp] theorem computeDE_phase (s : State) : (computeDE s).phase = s.phase := by unfold computeDE; split <;> rfl
@[simp] theorem computeDE_mem (s : State) : (computeDE s).mem = s.mem := by unfold computeDE; split <;> rfl
@[simp] theorem computeDE_status (s : State) : (computeDE s).status = s.status := by unfold computeDE; split <;> rfl
@[simp] theorem computeDE_draws (s : State) : (computeDE s).draws = s.draws := by unfold computeDE; split <;> rfl

/-! ### `computeEX` -/

@[simp] theorem computeEX_cfg (s : State) : (computeEX s).cfg = s.cfg := by unfold computeEX; dsimp only; split <;> (try split) <;> rfl
@[simp] theorem computeEX_regs (s : State) : (computeEX s).regs = s.regs := by unfold computeEX; dsimp only; split <;> (try split) <;> rfl
@[simp] theorem computeEX_ifStage (s : State) : (computeEX s).ifStage = s.ifStage := by unfold computeEX; dsimp only; split <;> (try split) <;> rfl
@[simp] theorem computeEX_deStage (s : State) : (computeEX s).deStage = s.deStage := by unfold computeEX; dsimp only; split <;> (try split) <;> rfl
@[simp] theorem computeEX_maStage (s : State) : (computeEX s).maStage = s.maStage := by unfold computeEX; dsimp only; split <;> (try split) <;> rfl
@[simp] theorem computeEX_phase (s : State) : (computeEX s).phase = s.phase := by unfold computeEX; dsimp only; split <;> (try split) <;> rfl
@[simp] theorem computeEX_mem (s : State) : (computeEX s).mem = s.mem := by unfold computeEX; dsimp only; split <;> (try split) <;> rfl
@[simp] theorem computeEX_status (s : State) : (computeEX s).status = s.status := by unfold computeEX; dsimp only; split <;> (try split) <;> rfl

/-! ### `computeMA` -/

@[simp] theorem computeMA_cfg (s : State) : (computeMA s).cfg = s.cfg := by unfold computeMA; split <;> rfl
@[simp] theorem computeMA_regs (s : State) : (computeMA s).regs = s.regs := by unfold computeMA; split <;> rfl
@[simp] theorem computeMA_ifStage (s : State) : (computeMA s).ifStage = s.ifStage := by unfold computeMA; split <;> rfl
@[simp] theorem computeMA_deStage (s : State) : (computeMA s).deStage = s.deStage := by unfold computeMA; split <;> rfl
@[simp] theorem computeMA_exStage (s : State) : (computeMA s).exStage = s.exStage := by unfold computeMA; split <;> rfl
@[simp] theorem computeMA_phase (s : State) : (computeMA s).phase = s.phase := by unfold computeMA; split <;> rfl
@[simp] theorem computeMA_mem (s : State) : (computeMA s).mem = s.mem := by unfold computeMA; split <;> rfl
@[simp] theorem computeMA_status (s : State) : (computeMA s).status = s.status := by unfold computeMA; split <;> rfl
@[simp] theorem computeMA_draws (s : State) : (computeMA s).draws = s.draws := by unfold computeMA; split <;> rfl

/-! ### `computeWB` -/

@[simp] theorem computeWB_cfg (s : State) : (computeWB s).cfg = s.cfg := by unfold computeWB; split <;> simp
@[simp] theorem computeWB_ifStage (s : State) : (computeWB s).ifStage = s.ifStage := by unfold computeWB; split <;> simp
@[simp] theorem computeWB_deStage (s : State) : (computeWB s).deStage = s.deStage := by unfold computeWB; split <;> simp
@[simp] theorem computeWB_exStage (s : State) : (computeWB s).exStage = s.exStage := by unfold computeWB; split <;> simp
@[simp] theorem computeWB_maStage (s : State) : (computeWB s).maStage = s.maStage := by unfold computeWB; split <;> simp
@[simp] theorem computeWB_phase (s : State) : (computeWB s).phase = s.phase := by unfold computeWB; split <;> simp
@[simp] theorem computeWB_mem (s : State) : (computeWB s).mem = s.mem := by unfold computeWB; split <;> simp
@[simp] theorem computeWB_status (s : State) : (computeWB s).status = s.status := by unfold computeWB; split <;> simp
@[simp] theorem computeWB_draws (s : State) : (computeWB s).draws = s.draws := by unfold computeWB; split <;> simp

/-! ### `latchIF` -/

@[simp] theorem latchIF_cfg (s : State) : (latchIF s).cfg = s.cfg := rfl
@[simp] theorem latchIF_regs (s : State) : (latchIF s).regs = s.regs := rfl
@[simp] theorem latchIF_deStage (s : State) : (latchIF s).deStage = s.deStage := rfl
@[simp] theorem latchIF_exStage (s : State) : (latchIF s).exStage = s.exStage := rfl
@[simp] theorem latchIF_maStage (s : State) : (latchIF s).maStage = s.maStage := rfl
@[simp] theorem latchIF_phase (s : State) : (latchIF s).phase = s.phase := rfl
@[simp] theorem latchIF_mem (s : State) : (latchIF s).mem = s.mem := rfl
@[simp] theorem latchIF_status (s : State) : (latchIF s).status = s.status := rfl
@[simp] theorem latchIF_draws (s : State) : (latchIF s).draws = s.draws := rfl

/-! ### `latchDE` -/

@[simp] theorem latchDE_cfg (s : State) : (latchDE s).cfg = s.cfg := rfl
@[simp] theorem latchDE_regs (s : State) : (latchDE s).regs = s.regs := rfl
@[simp] theorem latchDE_ifStage (s : State) : (latchDE s).ifStage = s.ifStage := rfl
@[simp] theorem latchDE_exStage (s : State) : (latchDE s).exStage = s.exStage := rfl
@[simp] theorem latchDE_maStage (s : State) : (latchDE s).maStage = s.maStage := rfl
@[simp] theorem latchDE_phase (s : State) : (latchDE s).phase = s.phase := rfl
@[simp] theorem latchDE_mem (s : State) : (latchDE s).mem = s.mem := rfl
@[simp] theorem latchDE_status (s : State) : (latchDE s).status = s.status := rfl
@[simp] theorem latchDE_draws (s : State) : (latchDE s).draws = s.draws := rfl

/-! ### `latchEX` -/

@[simp] theorem latchEX_cfg (s : State) : (latchEX s).cfg = s.cfg := rfl
@[simp] theorem latchEX_regs (s : State) : (latchEX s).regs = s.regs := rfl
@[simp] theorem latchEX_ifStage (s : State) : (latchEX s).ifStage = s.ifStage := rfl
@[simp] theorem latchEX_deStage (s : State) : (latchEX s).deStage = s.deStage := rfl
@[simp] theorem latchEX_maStage (s : State) : (latchEX s).maStage = s.maStage := rfl
@[simp] theorem latchEX_phase (s : State) : (latchEX s).phase = s.phase := rfl
@[simp] theorem latchEX_mem (s : State) : (latchEX s).mem = s.mem := rfl
@[simp] theorem latchEX_status (s : State) : (latchEX s).status = s.status := rfl

/-! ### `latchMA` -/

@[simp] theorem latchMA_cfg (s : State) : (latchMA s).cfg = s.cfg := rfl
@[simp] theorem latchMA_regs (s : State) : (latchMA s).regs = s.regs := rfl
@[simp] theorem latchMA_ifStage (s : State) : (latchMA s).ifStage = s.ifStage := rfl
@[simp] theorem latchMA_deStage (s : State) : (latchMA s).deStage = s.deStage := rfl
@[simp] theorem latchMA_exStage (s : State) : (latchMA s).exStage = s.exStage := rfl
@[simp] theorem latchMA_phase (s : State) : (latchMA s).phase = s.phase := rfl
@[simp] theorem latchMA_mem (s : State) : (latchMA s).mem = s.mem := rfl
@[simp] theorem latchMA_status (s : State) : (latchMA s).status = s.status := rfl
@[simp] theorem latchMA_draws (s : State) : (latchMA s).draws = s.draws := rfl

/-! ### `latchWB` -/

@[simp] theorem latchWB_cfg (s : State) : (latchWB s).cfg = s.cfg := rfl
@[simp] theorem latchWB_regs (s : State) : (latchWB s).regs = s.regs := rfl
@[simp] theorem latchWB_ifStage (s : State) : (latchWB s).ifStage = s.ifStage := rfl
@[simp] theorem latchWB_deStage (s : State) : (latchWB s).deStage = s.deStage := rfl
@[simp] theorem latchWB_exStage (s : State) : (latchWB s).exStage = s.exStage := rfl
@[simp] theorem latchWB_maStage (s : State) : (latchWB s).maStage = s.maStage := rfl
@[simp] theorem latchWB_phase (s : State) : (latchWB s).phase = s.phase := rfl
@[simp] theorem latchWB_mem (s : State) : (latchWB s).mem = s.mem := rfl
@[simp] theorem latchWB_status (s : State) : (latchWB s).status = s.status := rfl
@[simp] theorem latchWB_draws (s : State) : (latchWB s).draws = s.draws := rfl

/-! ### `advancePhase` -/

@[simp] theorem advancePhase_cfg (s : State) : (advancePhase s).cfg = s.cfg := rfl
@[simp] theorem advancePhase_regs (s : State) : (advancePhase s).regs = s.regs := rfl
@[simp] theorem advancePhase_ifStage (s : State) : (advancePhase s).ifStage = s.ifStage := rfl
@[simp] theorem advancePhase_deStage (s : State) : (advancePhase s).deStage = s.deStage := rfl
@[simp] theorem advancePhase_exStage (s : State) : (advancePhase s).exStage = s.exStage := rfl
@[simp] theorem advancePhase_maStage (s : State) : (advancePhase s).maStage = s.maStage := rfl
@[simp] theorem advancePhase_mem (s : State) : (advancePhase s).mem = s.mem := rfl
@[simp] theorem advancePhase_status (s : State) : (advancePhase s).status = s.status := rfl
@[simp] theorem advancePhase_draws (s : State) : (advancePhase s).draws = s.draws := rfl

@[simp] theorem advancePhase_phase (s : State) : (advancePhase s).phase = s.phase.succ := rfl

/-! ### `latchAll` -/

@[simp] theorem latchAll_cfg (s : State) : (latchAll s).cfg = s.cfg := rfl
@[simp] theorem latchAll_regs (s : State) : (latchAll s).regs = s.regs := rfl
@[simp] theorem latchAll_phase (s : State) : (latchAll s).phase = s.phase := rfl
@[simp] theorem latchAll_mem (s : State) : (latchAll s).mem = s.mem := rfl
@[simp] theorem latchAll_status (s : State) : (latchAll s).status = s.status := rfl

@[simp] theorem latchAll_ifStage (s : State) : (latchAll s).ifStage = s.ifStage.advance := rfl
@[simp] theorem latchAll_deStage (s : State) : (latchAll s).deStage = s.deStage.advance := rfl
@[simp] theorem latchAll_exStage (s : State) : (latchAll s).exStage = s.exStage.advance := rfl
@[simp] theorem latchAll_maStage (s : State) : (latchAll s).maStage = s.maStage.advance := rfl
@[simp] theorem latchAll_draws (s : State) : (latchAll s).draws = s.draws.advance := rfl

end Sys2Proof.Machine
end

