-- ==== Sys2Proof/Laws/Memory.lean ====
section
/-! SUPPORT. Storage: a read after a write, byte by byte and Word by Word, and the canonical form, which every memory
operation keeps. -/

namespace Sys2Proof.Machine

/-! ## The canonical form -/

theorem risesFrom_mono {lo lo' : Nat} (hle : lo' ≤ lo) : ∀ {m : Memory}, m.risesFrom lo = true → m.risesFrom lo' = true
  | [], _ => rfl
  | (b, v) :: m, h => by
    simp only [Memory.risesFrom, Bool.and_eq_true, decide_eq_true_eq] at h ⊢
    exact ⟨⟨by omega, h.1.2⟩, h.2⟩

theorem byteAt_eq_zero_of_lt {lo a : Nat} (ha : a < lo) :
    ∀ {m : Memory}, m.risesFrom lo = true → m.byteAt a = 0
  | [], _ => rfl
  | (b, v) :: m, h => by
    simp only [Memory.risesFrom, Bool.and_eq_true, decide_eq_true_eq] at h
    rw [Memory.byteAt, if_neg (by omega)]
    exact byteAt_eq_zero_of_lt (by omega) h.2

theorem risesFrom_setByte {lo a : Nat} (v : Byte) (ha : lo ≤ a) :
    ∀ {m : Memory}, m.risesFrom lo = true → (m.setByte a v).risesFrom lo = true
  | [], _ => by
    unfold Memory.setByte
    split
    · rfl
    · simp_all [Memory.risesFrom]
  | (b, u) :: m, h => by
    simp only [Memory.risesFrom, Bool.and_eq_true, decide_eq_true_eq] at h
    obtain ⟨⟨hb, hu⟩, hm⟩ := h
    unfold Memory.setByte
    split
    · split
      · simp_all [Memory.risesFrom]
      · simp only [Memory.risesFrom, Bool.and_eq_true, decide_eq_true_eq]
        exact ⟨⟨ha, by assumption⟩, ⟨by omega, hu⟩, hm⟩
    · split
      · split
        · exact risesFrom_mono (by omega) hm
        · simp only [Memory.risesFrom, Bool.and_eq_true, decide_eq_true_eq]
          subst a
          exact ⟨⟨ha, by assumption⟩, hm⟩
      · simp only [Memory.risesFrom, Bool.and_eq_true, decide_eq_true_eq]
        exact ⟨⟨hb, hu⟩, risesFrom_setByte v (by omega) hm⟩

/-- Writing a byte keeps the canonical form. -/
theorem wf_setByte {m : Memory} (a : Nat) (v : Byte) (h : m.wf = true) : (m.setByte a v).wf = true :=
  risesFrom_setByte v (Nat.zero_le a) h

theorem wf_setBytes : ∀ (vs : List Byte) {m : Memory} (a : Nat), m.wf = true → (m.setBytes a vs).wf = true
  | [], _, _, h => h
  | v :: vs, _, a, h => wf_setBytes vs (a + 1) (wf_setByte a v h)

/-- Writing a Word keeps the canonical form. -/
theorem wf_setWord {m : Memory} (a : Nat) (w : Word) (h : m.wf = true) : (m.setWord a w).wf = true :=
  wf_setBytes (wordBytes w) a h

/-- Storing an image keeps the canonical form. -/
theorem wf_setWords : ∀ (ws : List Word) {m : Memory} (a : Nat), m.wf = true → (m.setWords a ws).wf = true
  | [], _, _, h => h
  | w :: ws, _, a, h => wf_setWords ws (a + 4) (wf_setWord a w h)

theorem risesFrom_filter {p : Host.Cell → Bool} :
    ∀ {m : Memory} {lo : Nat}, m.risesFrom lo = true → Memory.risesFrom lo (m.filter p) = true
  | [], _, _ => rfl
  | (b, v) :: m, lo, h => by
    simp only [Memory.risesFrom, Bool.and_eq_true, decide_eq_true_eq] at h
    have hm : Memory.risesFrom (b + 1) (m.filter p) = true := risesFrom_filter h.2
    by_cases hp : p (b, v) = true
    · rw [List.filter_cons_of_pos hp]
      simp only [Memory.risesFrom, Bool.and_eq_true, decide_eq_true_eq]
      exact ⟨h.1, hm⟩
    · rw [List.filter_cons_of_neg hp]
      exact risesFrom_mono (by omega) hm

/-- Clearing a range keeps the canonical form. -/
theorem wf_clear {m : Memory} (base size : Nat) (h : m.wf = true) : (m.clear base size).wf = true :=
  risesFrom_filter h

/-! ## Which addresses are listed -/

/-- A cell listed after a byte write was listed before, or is the byte written. -/
theorem mem_setByte {c : Host.Cell} {a : Nat} {v : Byte} :
    ∀ {m : Memory}, c ∈ m.setByte a v → c ∈ m ∨ c.1 = a
  | [], h => by
    unfold Memory.setByte at h
    split at h
    · exact absurd h (List.not_mem_nil)
    · rw [List.mem_singleton] at h; exact .inr (by rw [h])
  | (b, u) :: m, h => by
    unfold Memory.setByte at h
    split at h
    · split at h
      · exact .inl h
      · rcases List.mem_cons.mp h with rfl | h'
        · exact .inr rfl
        · exact .inl h'
    · split at h
      · split at h
        · exact .inl (List.mem_cons_of_mem _ h)
        · rcases List.mem_cons.mp h with rfl | h'
          · exact .inr rfl
          · exact .inl (List.mem_cons_of_mem _ h')
      · rcases List.mem_cons.mp h with rfl | h'
        · exact .inl (List.mem_cons_self)
        · exact (mem_setByte h').imp_left (List.mem_cons_of_mem _)

theorem mem_setBytes {c : Host.Cell} :
    ∀ (vs : List Byte) {m : Memory} {a : Nat}, c ∈ m.setBytes a vs → c ∈ m ∨ (a ≤ c.1 ∧ c.1 < a + vs.length)
  | [], _, _, h => .inl h
  | v :: vs, m, a, h => by
    rcases mem_setBytes vs h with h' | h'
    · rcases mem_setByte h' with h'' | h''
      · exact .inl h''
      · exact .inr (by simp only [List.length_cons]; omega)
    · exact .inr (by simp only [List.length_cons]; omega)

/-- A cell listed after a Word write was listed before, or is one of the four bytes written. -/
theorem mem_setWord {c : Host.Cell} {m : Memory} {a : Nat} {w : Word} (h : c ∈ m.setWord a w) :
    c ∈ m ∨ (a ≤ c.1 ∧ c.1 < a + 4) :=
  mem_setBytes (wordBytes w) h

/-- A cell listed after an image is stored was listed before, or lies under the image. -/
theorem mem_setWords {c : Host.Cell} :
    ∀ (ws : List Word) {m : Memory} {a : Nat}, c ∈ m.setWords a ws → c ∈ m ∨ (a ≤ c.1 ∧ c.1 < a + 4 * ws.length)
  | [], _, _, h => .inl h
  | w :: ws, m, a, h => by
    rcases mem_setWords ws h with h' | h'
    · rcases mem_setWord h' with h'' | h''
      · exact .inl h''
      · exact .inr (by simp only [List.length_cons]; omega)
    · exact .inr (by simp only [List.length_cons]; omega)

/-! ## Reading after writing -/

/-- A byte read after a byte write. The memory is in canonical form. -/
theorem byteAt_setByte {lo : Nat} (a b : Nat) (v : Byte) :
    ∀ {m : Memory}, m.risesFrom lo = true → (m.setByte a v).byteAt b = if b = a then v else m.byteAt b
  | [], _ => by
    unfold Memory.setByte
    split
    · simp_all [Memory.byteAt]
    · simp [Memory.byteAt]
  | (c, u) :: m, h => by
    simp only [Memory.risesFrom, Bool.and_eq_true, decide_eq_true_eq] at h
    obtain ⟨⟨hc, hu⟩, hm⟩ := h
    unfold Memory.setByte
    by_cases hac : a < c
    · rw [if_pos hac]
      by_cases hv : v = 0
      · rw [if_pos hv]
        by_cases hb : b = a
        · subst hb
          rw [if_pos rfl, hv, Memory.byteAt, if_neg (by omega)]
          exact byteAt_eq_zero_of_lt (by omega) hm
        · rw [if_neg hb]
      · rw [if_neg hv, Memory.byteAt]
    · rw [if_neg hac]
      by_cases hac' : a = c
      · subst hac'
        rw [if_pos rfl]
        by_cases hv : v = 0
        · rw [if_pos hv]
          by_cases hb : b = a
          · subst hb
            rw [if_pos rfl, hv]
            exact byteAt_eq_zero_of_lt (Nat.lt_succ_self b) hm
          · rw [if_neg hb, Memory.byteAt, if_neg hb]
        · rw [if_neg hv, Memory.byteAt, Memory.byteAt]
          by_cases hb : b = a
          · rw [if_pos hb, if_pos hb]
          · rw [if_neg hb, if_neg hb, if_neg hb]
      · rw [if_neg hac', Memory.byteAt, Memory.byteAt, byteAt_setByte a b v hm]
        by_cases hb : b = c
        · rw [if_pos hb, if_pos hb, if_neg (by omega)]
        · rw [if_neg hb, if_neg hb]

/-- The byte that a list of bytes stored at `a` puts at address `b`. -/
theorem byteAt_setBytes (b : Nat) :
    ∀ (vs : List Byte) {m : Memory} (a : Nat), m.wf = true →
      (m.setBytes a vs).byteAt b = if a ≤ b ∧ b < a + vs.length then vs.getD (b - a) 0 else m.byteAt b
  | [], m, a, _ => by rw [if_neg (by simp)]; rfl
  | v :: vs, m, a, h => by
    rw [Memory.setBytes, byteAt_setBytes b vs (a + 1) (wf_setByte a v h), byteAt_setByte a b v h]
    simp only [List.length_cons]
    by_cases hb : b = a
    · subst hb
      rw [if_neg (by omega), if_pos rfl, if_pos (by omega)]
      simp
    · rw [if_neg hb]
      by_cases hin : a + 1 ≤ b ∧ b < a + 1 + vs.length
      · rw [if_pos hin, if_pos (by omega)]
        obtain ⟨k, rfl⟩ : ∃ k, b = a + 1 + k := ⟨b - (a + 1), by omega⟩
        have h1 : a + 1 + k - (a + 1) = k := by omega
        have h2 : a + 1 + k - a = k + 1 := by omega
        rw [h1, h2, List.getD_cons_succ]
      · rw [if_neg hin, if_neg (by omega)]

/-- The four bytes of a Word pack back to it (R55). -/
theorem wordOfBytes_wordBytes (w : Word) :
    wordOfBytes (w.extractLsb' 0 8) (w.extractLsb' 8 8) (w.extractLsb' 16 8) (w.extractLsb' 24 8) = w := by
  unfold wordOfBytes
  apply BitVec.eq_of_getLsbD_eq
  intro i hi
  simp only [BitVec.getLsbD_append, BitVec.getLsbD_extractLsb']
  by_cases h0 : i < 8
  · simp [h0]
  by_cases h1 : i < 16
  · simp [h0, show i - 8 < 8 by omega, show 8 + (i - 8) = i by omega]
  by_cases h2 : i < 24
  · simp [h0, show ¬ i - 8 < 8 by omega, show i - 8 - 8 < 8 by omega, show 16 + (i - 8 - 8) = i by omega]
  · simp [h0, show ¬ i - 8 < 8 by omega, show ¬ i - 8 - 8 < 8 by omega, show i - 8 - 8 - 8 < 8 by omega,
      show 24 + (i - 8 - 8 - 8) = i by omega]

/-- A Word read where a Word was written. -/
theorem wordAt_setWord_same {m : Memory} (a : Nat) (w : Word) (h : m.wf = true) : (m.setWord a w).wordAt a = w := by
  have hb : ∀ k, k < 4 → (m.setWord a w).byteAt (a + k) = (wordBytes w).getD k 0 := by
    intro k hk
    rw [Memory.setWord, byteAt_setBytes (a + k) (wordBytes w) a h, if_pos (by simp [wordBytes]; omega)]
    simp
  have h0 := hb 0 (by omega)
  rw [Nat.add_zero] at h0
  rw [Memory.wordAt, h0, hb 1 (by omega), hb 2 (by omega), hb 3 (by omega)]
  exact wordOfBytes_wordBytes w

/-- A byte outside a Word that was written. -/
theorem byteAt_setWord_other {m : Memory} {a b : Nat} (w : Word) (h : m.wf = true) (hb : b < a ∨ a + 4 ≤ b) :
    (m.setWord a w).byteAt b = m.byteAt b := by
  rw [Memory.setWord, byteAt_setBytes b (wordBytes w) a h, if_neg (by simp [wordBytes]; omega)]

/-- A Word disjoint from one that was written. -/
theorem wordAt_setWord_other {m : Memory} {a b : Nat} (w : Word) (h : m.wf = true) (hb : b + 4 ≤ a ∨ a + 4 ≤ b) :
    (m.setWord a w).wordAt b = m.wordAt b := by
  unfold Memory.wordAt
  rw [byteAt_setWord_other w h (by omega), byteAt_setWord_other w h (by omega),
    byteAt_setWord_other w h (by omega), byteAt_setWord_other w h (by omega)]

/-- A Word below an image that was stored. -/
theorem wordAt_setWords_below {b : Nat} :
    ∀ (ws : List Word) {m : Memory} {a : Nat}, m.wf = true → b + 4 ≤ a → (m.setWords a ws).wordAt b = m.wordAt b
  | [], _, _, _, _ => rfl
  | w :: ws, m, a, h, hb => by
    rw [Memory.setWords, wordAt_setWords_below ws (wf_setWord a w h) (by omega),
      wordAt_setWord_other w h (by omega)]

/-- Words above a stored image read as before. -/
theorem wordAt_setWords_above {b : Nat} :
    ∀ (ws : List Word) {m : Memory} {a : Nat}, m.wf = true → a + 4 * ws.length ≤ b →
      (m.setWords a ws).wordAt b = m.wordAt b
  | [], _, _, _, _ => rfl
  | w :: ws, m, a, h, hb => by
    simp only [List.length_cons] at hb
    rw [Memory.setWords, wordAt_setWords_above ws (wf_setWord a w h) (by omega), wordAt_setWord_other w h (by omega)]

/-- The Words of an image that was stored, and those beyond its end. -/
theorem wordAt_setWords {k : Nat} :
    ∀ (ws : List Word) {m : Memory} {a : Nat}, m.wf = true →
      (m.setWords a ws).wordAt (a + 4 * k) = if k < ws.length then ws.getD k 0 else m.wordAt (a + 4 * k)
  | [], m, a, h => by simp [Memory.setWords]
  | w :: ws, m, a, h => by
    rw [Memory.setWords]
    cases k with
    | zero =>
      simp only [Nat.mul_zero, Nat.add_zero]
      rw [wordAt_setWords_below ws (wf_setWord a w h) (by omega),
        wordAt_setWord_same a w h]
      simp
    | succ k =>
      have e : a + 4 * (k + 1) = a + 4 + 4 * k := by omega
      rw [e, wordAt_setWords ws (wf_setWord a w h)]
      simp only [List.length_cons, List.getD_cons_succ, Nat.succ_lt_succ_iff]
      split
      · rfl
      · exact wordAt_setWord_other w h (by omega)

/-- A byte after a range was cleared. -/
theorem byteAt_clear (base size a : Nat) :
    ∀ (m : Memory), (m.clear base size).byteAt a = if base ≤ a ∧ a < base + size then 0 else m.byteAt a
  | [] => by simp [Memory.clear, Memory.byteAt]
  | (b, v) :: m => by
    have ih := byteAt_clear base size a m
    unfold Memory.clear at ih ⊢
    by_cases hb : base ≤ b ∧ b < base + size
    · rw [List.filter_cons_of_neg (by simp [hb]), ih, Memory.byteAt]
      by_cases hab : a = b
      · rw [if_pos (by omega), if_pos (by omega)]
      · rw [if_neg hab]
    · rw [List.filter_cons_of_pos (by simp; omega), Memory.byteAt, Memory.byteAt, ih]
      by_cases hab : a = b
      · rw [if_pos hab, if_neg (by omega), if_pos hab]
      · rw [if_neg hab, if_neg hab]

/-- A Word of a range that was cleared is zero. -/
theorem wordAt_clear_inside {base size a : Nat} (m : Memory) (h : base ≤ a ∧ a + 4 ≤ base + size) :
    (m.clear base size).wordAt a = 0 := by
  unfold Memory.wordAt
  simp only [byteAt_clear]
  rw [if_pos (by omega), if_pos (by omega), if_pos (by omega), if_pos (by omega)]
  rfl

/-- A Word outside a range that was cleared. -/
theorem wordAt_clear_outside {base size a : Nat} (m : Memory) (h : a + 4 ≤ base ∨ base + size ≤ a) :
    (m.clear base size).wordAt a = m.wordAt a := by
  unfold Memory.wordAt
  simp only [byteAt_clear]
  rw [if_neg (by omega), if_neg (by omega), if_neg (by omega), if_neg (by omega)]

end Sys2Proof.Machine
end

