-- ==== Sys2Proof/Laws/Bus.lean ====
section
/-! SUPPORT. The bus and the devices, each said once: what a read answers, what a write answers, and which condition is
raised where (R44 to R50). -/

namespace Sys2Proof.Machine

/-- An address has an owner (R47). -/
theorem route_ne_unmapped {c : Config} {a : Word} :
    route c a ≠ .unmapped ↔ (inRom c a.toNat = true ∨ inRam c a.toNat = true) := by
  unfold route; split <;> (try split) <;> simp_all

/-- What a bus read can answer (R48, R50). -/
theorem busRead_cases (s : State) (a : Word) :
    (aligned a = false ∧ busRead s a = .error (.unalignedAccess a .read)) ∨
    (aligned a = true ∧ route s.cfg a = .unmapped ∧ busRead s a = .error (.unmappedAddress a .read)) ∨
    (aligned a = true ∧ route s.cfg a ≠ .unmapped ∧ busRead s a = .ok (s.mem.wordAt a.toNat)) := by
  unfold busRead route romRead ramRead
  by_cases ha : aligned a = true <;> by_cases h1 : inRom s.cfg a.toNat = true <;>
    by_cases h2 : inRam s.cfg a.toNat = true <;> simp [ha, h1, h2]

/-- A bus read of an aligned mapped address answers the Word stored there. -/
theorem busRead_mapped {s : State} {a : Word} (ha : aligned a = true) (hm : route s.cfg a ≠ .unmapped) :
    busRead s a = .ok (s.mem.wordAt a.toNat) := by
  rcases busRead_cases s a with h | h | h <;> simp_all

/-- A bus read of an aligned unmapped address. -/
theorem busRead_unmapped {s : State} {a : Word} (ha : aligned a = true) (hm : route s.cfg a = .unmapped) :
    busRead s a = .error (.unmappedAddress a .read) := by
  rcases busRead_cases s a with h | h | h <;> simp_all

/-- A bus read of a misaligned address. -/
theorem busRead_unaligned {s : State} {a : Word} (ha : aligned a = false) :
    busRead s a = .error (.unalignedAccess a .read) := by
  rcases busRead_cases s a with h | h | h <;> simp_all

/-- A bus read looks at the deployment and at storage, and at nothing else of the machine. -/
theorem busRead_congr {s t : State} (hc : t.cfg = s.cfg) (hm : t.mem = s.mem) (a : Word) :
    busRead t a = busRead s a := by
  unfold busRead romRead ramRead; rw [hc, hm]

/-- What a bus write can answer (R49, R50). -/
theorem busWrite_cases (s : State) (a v : Word) :
    (aligned a = false ∧ busWrite s a v = .error (.unalignedAccess a .write)) ∨
    (aligned a = true ∧ route s.cfg a = .rom ∧ busWrite s a v = .error (.readOnly a)) ∨
    (aligned a = true ∧ route s.cfg a = .ram ∧ busWrite s a v = .ok { s with mem := s.mem.setWord a.toNat v }) ∨
    (aligned a = true ∧ route s.cfg a = .unmapped ∧ busWrite s a v = .error (.unmappedAddress a .write)) := by
  unfold busWrite route ramWrite
  by_cases ha : aligned a = true <;> by_cases h1 : inRom s.cfg a.toNat = true <;>
    by_cases h2 : inRam s.cfg a.toNat = true <;> simp [ha, h1, h2]

/-- What a fetch can answer: the decoded Word at the program counter, or the bus's condition (R91). -/
theorem fetchInstr_cases (s : State) :
    (∃ f, busRead s s.pc = .error f ∧ fetchInstr s = .error f) ∨
    (∃ w, busRead s s.pc = .ok w ∧ fetchInstr s = .ok (decode s.cfg.altBit w)) := by
  unfold fetchInstr
  cases h : busRead s s.pc with
  | error f => exact .inl ⟨f, rfl, rfl⟩
  | ok w => exact .inr ⟨w, rfl, rfl⟩

/-- A load succeeds exactly when the image fits (R43). -/
theorem romLoad_cases (s : State) (image : List Word) :
    (romCapacity s.cfg < image.length ∧
      romLoad s image = .error (.imageTooLarge image.length (romCapacity s.cfg))) ∨
    (image.length ≤ romCapacity s.cfg ∧
      romLoad s image =
        .ok { s with mem := (s.mem.clear s.cfg.romBase s.cfg.romSize).setWords s.cfg.romBase image }) := by
  unfold romLoad
  by_cases h : romCapacity s.cfg < image.length
  · exact .inl ⟨h, if_pos h⟩
  · exact .inr ⟨Nat.le_of_not_lt h, if_neg h⟩

end Sys2Proof.Machine
end

