-- ==== Sys2Proof/Laws/Decode.lean ====
section
/-! SUPPORT. The fields of an encoded word, form by form (R66, R67). -/

namespace Sys2Proof

/-- A field that lies in the upper part of a concatenation. -/
theorem extract_upper {v w start len : Nat} {x : BitVec v} {y : BitVec w} {z : BitVec len} (h : w ≤ start)
    (hx : x.extractLsb' (start - w) len = z) : (x ++ y).extractLsb' start len = z :=
  (BitVec.extractLsb'_append_eq_of_le h).trans hx

/-- A field that lies in the lower part of a concatenation. -/
theorem extract_lower {v w start len : Nat} {x : BitVec v} {y : BitVec w} {z : BitVec len} (h : start + len ≤ w)
    (hy : y.extractLsb' start len = z) : (x ++ y).extractLsb' start len = z :=
  (BitVec.extractLsb'_append_eq_of_add_le h).trans hy

section
variable (imm : BitVec 12) (funct7 : BitVec 7) (rs1 rs2 rd : RegIx) (funct3 : BitVec 3) (opcode : BitVec 7)
  (upper17 : BitVec 17) (upper25 : BitVec 25)

@[simp] theorem opcodeOf_immediateForm : opcodeOf (immediateForm imm rs1 funct3 rd opcode) = opcode :=
  extract_lower (by decide) BitVec.extractLsb'_eq_self
@[simp] theorem rdOf_immediateForm : rdOf (immediateForm imm rs1 funct3 rd opcode) = rd :=
  extract_upper (by decide) (extract_lower (by decide) BitVec.extractLsb'_eq_self)
@[simp] theorem funct3Of_immediateForm : funct3Of (immediateForm imm rs1 funct3 rd opcode) = funct3 :=
  extract_upper (by decide) (extract_upper (by decide) (extract_lower (by decide) BitVec.extractLsb'_eq_self))
@[simp] theorem rs1Of_immediateForm : rs1Of (immediateForm imm rs1 funct3 rd opcode) = rs1 :=
  extract_upper (by decide) (extract_upper (by decide) (extract_upper (by decide) (extract_lower (by decide) BitVec.extractLsb'_eq_self)))
@[simp] theorem immOf_immediateForm : immOf (immediateForm imm rs1 funct3 rd opcode) = imm :=
  extract_upper (by decide) (extract_upper (by decide) (extract_upper (by decide) (extract_upper (by decide) BitVec.extractLsb'_eq_self)))

@[simp] theorem opcodeOf_registerForm : opcodeOf (registerForm funct7 rs2 rs1 funct3 rd opcode) = opcode :=
  extract_lower (by decide) BitVec.extractLsb'_eq_self
@[simp] theorem rdOf_registerForm : rdOf (registerForm funct7 rs2 rs1 funct3 rd opcode) = rd :=
  extract_upper (by decide) (extract_lower (by decide) BitVec.extractLsb'_eq_self)
@[simp] theorem funct3Of_registerForm : funct3Of (registerForm funct7 rs2 rs1 funct3 rd opcode) = funct3 :=
  extract_upper (by decide) (extract_upper (by decide) (extract_lower (by decide) BitVec.extractLsb'_eq_self))
@[simp] theorem rs1Of_registerForm : rs1Of (registerForm funct7 rs2 rs1 funct3 rd opcode) = rs1 :=
  extract_upper (by decide) (extract_upper (by decide) (extract_upper (by decide) (extract_lower (by decide) BitVec.extractLsb'_eq_self)))
@[simp] theorem rs2Of_registerForm : rs2Of (registerForm funct7 rs2 rs1 funct3 rd opcode) = rs2 :=
  extract_upper (by decide) (extract_upper (by decide) (extract_upper (by decide) (extract_upper (by decide) (extract_lower (by decide) BitVec.extractLsb'_eq_self))))
@[simp] theorem funct7Of_registerForm : funct7Of (registerForm funct7 rs2 rs1 funct3 rd opcode) = funct7 :=
  extract_upper (by decide) (extract_upper (by decide) (extract_upper (by decide) (extract_upper (by decide) (extract_upper (by decide) BitVec.extractLsb'_eq_self))))

@[simp] theorem opcodeOf_unimplementedForm : opcodeOf (unimplementedForm upper17 funct3 rd opcode) = opcode :=
  extract_lower (by decide) BitVec.extractLsb'_eq_self
@[simp] theorem rdOf_unimplementedForm : rdOf (unimplementedForm upper17 funct3 rd opcode) = rd :=
  extract_upper (by decide) (extract_lower (by decide) BitVec.extractLsb'_eq_self)
@[simp] theorem funct3Of_unimplementedForm : funct3Of (unimplementedForm upper17 funct3 rd opcode) = funct3 :=
  extract_upper (by decide) (extract_upper (by decide) (extract_lower (by decide) BitVec.extractLsb'_eq_self))
@[simp] theorem upper17Of_unimplementedForm : upper17Of (unimplementedForm upper17 funct3 rd opcode) = upper17 :=
  extract_upper (by decide) (extract_upper (by decide) (extract_upper (by decide) BitVec.extractLsb'_eq_self))

@[simp] theorem opcodeOf_opcodeForm : opcodeOf (opcodeForm upper25 opcode) = opcode :=
  extract_lower (by decide) BitVec.extractLsb'_eq_self
@[simp] theorem upper25Of_opcodeForm : upper25Of (opcodeForm upper25 opcode) = upper25 :=
  extract_upper (by decide) BitVec.extractLsb'_eq_self
end

/-- A word of an opcode that is neither constant word's is decoded by its opcode alone. -/
theorem decode_of_opcode {alt : AltBit} {w : Word} {o : BitVec 7} (h : opcodeOf w = o) (h0 : o ≠ 0x00#7)
    (h1 : o ≠ 0x7F#7) : decode alt w = decodeOpcode alt w o := by
  have hz : w ≠ 0 := fun e => h0 (by rw [← h, e]; decide)
  have ho : w ≠ 0xFFFFFFFF#32 := fun e => h1 (by rw [← h, e]; decide)
  rw [decode, if_neg hz, if_neg ho, h]

/-- The two constant words of the table have opcodes of no form that carries operands. -/
@[simp] theorem opcodeOf_zero : opcodeOf 0 = 0x00#7 := by decide
@[simp] theorem opcodeOf_ones : opcodeOf 0xFFFFFFFF#32 = 0x7F#7 := by decide

end Sys2Proof
end

