-- ==== Sys2Proof/Laws/Driver.lean ====
section
/-! SUPPORT. The host's interactions, each said once: when it is refused, and what it leaves (R166 to R168). -/

namespace Sys2Proof.Machine

/-- A load is refused while a run is under way and at no other time. -/
theorem allowsLoad_iff (r : RunProgress) : r.allowsLoad = true ↔ r ≠ .underWay := by cases r <;> decide

/-- A preload is allowed before the first cycle and at no other time. -/
theorem allowsPreload_iff (r : RunProgress) : r.allowsPreload = true ↔ r = .fresh := by cases r <;> decide

/-- A cycle is refused after a load that no reset has followed and at no other time. -/
theorem allowsCycle_iff (r : RunProgress) : r.allowsCycle = true ↔ r ≠ .reloaded := by cases r <;> decide

/-- Before a run a load calls for no reset, after it does. -/
theorem afterLoad_eq (r : RunProgress) : r.afterLoad = if r = .fresh then .fresh else .reloaded := by cases r <;> rfl

/-- What a host's load can do (R43, R166, R167). -/
theorem hostLoad_cases (image : List Word) (h : Session) :
    (h.run = .underWay ∧ hostLoad image h = .error .loadInRun) ∨
    (∃ f, h.run ≠ .underWay ∧ romLoad h.machine image = .error f ∧
      hostLoad image h = .ok { session := h, answer := .condition f }) ∨
    (∃ t, h.run ≠ .underWay ∧ romLoad h.machine image = .ok t ∧
      hostLoad image h = .ok { session := { machine := t, run := h.run.afterLoad }, answer := .done }) := by
  unfold hostLoad
  by_cases hr : h.run = .underWay
  · exact .inl ⟨hr, by rw [hr]; rfl⟩
  · rw [if_pos ((allowsLoad_iff _).mpr hr)]
    cases hl : romLoad h.machine image with
    | error f => exact .inr (.inl ⟨f, hr, rfl, rfl⟩)
    | ok t => exact .inr (.inr ⟨t, hr, rfl, rfl⟩)

/-- What a register preload can do (R168). -/
theorem hostPreloadReg_cases (i : RegIx) (v : Word) (h : Session) :
    (h.run ≠ .fresh ∧ hostPreloadReg i v h = .error .preloadAfterFirstCycle) ∨
    (h.run = .fresh ∧ hostPreloadReg i v h =
      .ok { session := { h with machine := h.machine.writeReg i v }, answer := .done }) := by
  unfold hostPreloadReg
  by_cases hr : h.run = .fresh
  · exact .inr ⟨hr, if_pos ((allowsPreload_iff _).mpr hr)⟩
  · exact .inl ⟨hr, if_neg (fun ha => hr ((allowsPreload_iff _).mp ha))⟩

/-- What a RAM preload can do (R168). -/
theorem hostPreloadRam_cases (a v : Word) (h : Session) :
    (h.run ≠ .fresh ∧ hostPreloadRam a v h = .error .preloadAfterFirstCycle) ∨
    (∃ f, h.run = .fresh ∧ busWrite h.machine a v = .error f ∧
      hostPreloadRam a v h = .ok { session := h, answer := .condition f }) ∨
    (∃ t, h.run = .fresh ∧ busWrite h.machine a v = .ok t ∧
      hostPreloadRam a v h = .ok { session := { h with machine := t }, answer := .done }) := by
  unfold hostPreloadRam
  by_cases hr : h.run = .fresh
  · rw [if_pos ((allowsPreload_iff _).mpr hr)]
    cases hb : busWrite h.machine a v with
    | error f => exact .inr (.inl ⟨f, hr, rfl, rfl⟩)
    | ok t => exact .inr (.inr ⟨t, hr, rfl, rfl⟩)
  · exact .inl ⟨hr, if_neg (fun ha => hr ((allowsPreload_iff _).mp ha))⟩

/-- What a `cycle()` call can do to a session (R147, R166, R167). -/
theorem hostRunCycle_cases (h : Session) :
    (∃ f, h.machine.status = .faulted f ∧ hostRunCycle h = .ok { session := h, answer := .condition f }) ∨
    (h.machine.status = .running ∧ h.run = .reloaded ∧ hostRunCycle h = .error .cycleAfterLoad) ∨
    (h.machine.status = .running ∧ h.run ≠ .reloaded ∧ (hostCycle h.machine).raised = none ∧ hostRunCycle h =
      .ok { session := { machine := (hostCycle h.machine).machine, run := .underWay }, answer := .done }) ∨
    (∃ f, h.machine.status = .running ∧ h.run ≠ .reloaded ∧ (hostCycle h.machine).raised = some f ∧ hostRunCycle h =
      .ok { session := { machine := (hostCycle h.machine).machine, run := .ended }, answer := .condition f }) := by
  unfold hostRunCycle
  cases hs : h.machine.status with
  | faulted f => exact .inl ⟨f, rfl, rfl⟩
  | running =>
    right
    by_cases hr : h.run = .reloaded
    · exact .inl ⟨rfl, hr, if_neg (fun ha => (allowsCycle_iff _).mp ha hr)⟩
    · simp only [if_pos ((allowsCycle_iff _).mpr hr)]
      cases hc : (hostCycle h.machine).raised with
      | none => exact .inr (.inl ⟨trivial, hr, rfl, rfl⟩)
      | some f => exact .inr (.inr ⟨f, trivial, hr, rfl, rfl⟩)

end Sys2Proof.Machine
end

