-- ==== Sys2Proof/Laws/PerInstr.lean ====
section
/-! SUPPORT. A law of every instruction as syntax, constructor by constructor: the opcode of its word is ALU-class exactly
for the rows of priority 1 and 2 (R72, R84). -/

namespace Sys2Proof.Laws.AluClass

open Sys2Proof.Machine

/-- The rows of priority 1 and 2: ADDI, ADD, SUB and the unimplemented positions (R84). -/
def aluRow : Instr → Bool
  | .addi _ _ _ => true
  | .add _ _ _ _ => true
  | .sub _ _ _ _ => true
  | .undefOpimm001 _ _ => true
  | .undefOpimm010 _ _ => true
  | .undefOpimm011 _ _ => true
  | .undefOpimm100 _ _ => true
  | .undefOpimm101 _ _ => true
  | .undefOpimm110 _ _ => true
  | .undefOpimm111 _ _ => true
  | .undefOp001 _ _ => true
  | .undefOp010 _ _ => true
  | .undefOp011 _ _ => true
  | .undefOp100 _ _ => true
  | .undefOp101 _ _ => true
  | .undefOp110 _ _ => true
  | .undefOp111 _ _ => true
  | .nopLoad _ => false
  | .nopStore _ => false
  | .nopBranch _ => false
  | .nopJal _ => false
  | .nopJalr _ => false
  | .nopLui _ => false
  | .nopAuipc _ => false
  | .nopMiscMem _ => false
  | .nopSystem _ => false
  | .nopLoadFp _ => false
  | .nopStoreFp _ => false
  | .nopAmo _ => false
  | .nopOpImm32 _ => false
  | .nopOp32 _ => false
  | .nopMadd _ => false
  | .nopMsub _ => false
  | .nopNmsub _ => false
  | .nopNmadd _ => false
  | .nopOpFp _ => false
  | .nopZeroWord => false
  | .nopOnesWord => false
  | .nopOther _ => false

/-- The ALU-class predicate of R72 holds of a well-formed instruction's word exactly when its row is an ALU row. -/
def Statement (i : Instr) : Prop := ∀ alt, i.wf alt = true → isAluClass (opcodeOf (encode i)) = aluRow i

/-- The two opcodes of R72, of the 128. -/
theorem isAluClass_iff : ∀ o : BitVec 7, isAluClass o = true ↔ (o = 0x13#7 ∨ o = 0x33#7) := by decide

theorem addi (rd rs1 : RegIx) (imm : BitVec 12) : Statement (.addi rd rs1 imm) := by
  intro alt _; simp [encode]; rfl
theorem add (rd rs1 rs2 : RegIx) (funct7 : BitVec 7) : Statement (.add rd rs1 rs2 funct7) := by
  intro alt _; simp [encode]; rfl
theorem sub (rd rs1 rs2 : RegIx) (funct7 : BitVec 7) : Statement (.sub rd rs1 rs2 funct7) := by
  intro alt _; simp [encode]; rfl
theorem undefOpimm001 (rd : RegIx) (other : BitVec 17) : Statement (.undefOpimm001 rd other) := by
  intro alt _; simp [encode]; rfl
theorem undefOpimm010 (rd : RegIx) (other : BitVec 17) : Statement (.undefOpimm010 rd other) := by
  intro alt _; simp [encode]; rfl
theorem undefOpimm011 (rd : RegIx) (other : BitVec 17) : Statement (.undefOpimm011 rd other) := by
  intro alt _; simp [encode]; rfl
theorem undefOpimm100 (rd : RegIx) (other : BitVec 17) : Statement (.undefOpimm100 rd other) := by
  intro alt _; simp [encode]; rfl
theorem undefOpimm101 (rd : RegIx) (other : BitVec 17) : Statement (.undefOpimm101 rd other) := by
  intro alt _; simp [encode]; rfl
theorem undefOpimm110 (rd : RegIx) (other : BitVec 17) : Statement (.undefOpimm110 rd other) := by
  intro alt _; simp [encode]; rfl
theorem undefOpimm111 (rd : RegIx) (other : BitVec 17) : Statement (.undefOpimm111 rd other) := by
  intro alt _; simp [encode]; rfl
theorem undefOp001 (rd : RegIx) (other : BitVec 17) : Statement (.undefOp001 rd other) := by
  intro alt _; simp [encode]; rfl
theorem undefOp010 (rd : RegIx) (other : BitVec 17) : Statement (.undefOp010 rd other) := by
  intro alt _; simp [encode]; rfl
theorem undefOp011 (rd : RegIx) (other : BitVec 17) : Statement (.undefOp011 rd other) := by
  intro alt _; simp [encode]; rfl
theorem undefOp100 (rd : RegIx) (other : BitVec 17) : Statement (.undefOp100 rd other) := by
  intro alt _; simp [encode]; rfl
theorem undefOp101 (rd : RegIx) (other : BitVec 17) : Statement (.undefOp101 rd other) := by
  intro alt _; simp [encode]; rfl
theorem undefOp110 (rd : RegIx) (other : BitVec 17) : Statement (.undefOp110 rd other) := by
  intro alt _; simp [encode]; rfl
theorem undefOp111 (rd : RegIx) (other : BitVec 17) : Statement (.undefOp111 rd other) := by
  intro alt _; simp [encode]; rfl
theorem nopLoad (other : BitVec 25) : Statement (.nopLoad other) := by
  intro alt _; simp [encode]; rfl
theorem nopStore (other : BitVec 25) : Statement (.nopStore other) := by
  intro alt _; simp [encode]; rfl
theorem nopBranch (other : BitVec 25) : Statement (.nopBranch other) := by
  intro alt _; simp [encode]; rfl
theorem nopJal (other : BitVec 25) : Statement (.nopJal other) := by
  intro alt _; simp [encode]; rfl
theorem nopJalr (other : BitVec 25) : Statement (.nopJalr other) := by
  intro alt _; simp [encode]; rfl
theorem nopLui (other : BitVec 25) : Statement (.nopLui other) := by
  intro alt _; simp [encode]; rfl
theorem nopAuipc (other : BitVec 25) : Statement (.nopAuipc other) := by
  intro alt _; simp [encode]; rfl
theorem nopMiscMem (other : BitVec 25) : Statement (.nopMiscMem other) := by
  intro alt _; simp [encode]; rfl
theorem nopSystem (other : BitVec 25) : Statement (.nopSystem other) := by
  intro alt _; simp [encode]; rfl
theorem nopLoadFp (other : BitVec 25) : Statement (.nopLoadFp other) := by
  intro alt _; simp [encode]; rfl
theorem nopStoreFp (other : BitVec 25) : Statement (.nopStoreFp other) := by
  intro alt _; simp [encode]; rfl
theorem nopAmo (other : BitVec 25) : Statement (.nopAmo other) := by
  intro alt _; simp [encode]; rfl
theorem nopOpImm32 (other : BitVec 25) : Statement (.nopOpImm32 other) := by
  intro alt _; simp [encode]; rfl
theorem nopOp32 (other : BitVec 25) : Statement (.nopOp32 other) := by
  intro alt _; simp [encode]; rfl
theorem nopMadd (other : BitVec 25) : Statement (.nopMadd other) := by
  intro alt _; simp [encode]; rfl
theorem nopMsub (other : BitVec 25) : Statement (.nopMsub other) := by
  intro alt _; simp [encode]; rfl
theorem nopNmsub (other : BitVec 25) : Statement (.nopNmsub other) := by
  intro alt _; simp [encode]; rfl
theorem nopNmadd (other : BitVec 25) : Statement (.nopNmadd other) := by
  intro alt _; simp [encode]; rfl
theorem nopOpFp (other : BitVec 25) : Statement (.nopOpFp other) := by
  intro alt _; simp [encode]; rfl
theorem nopZeroWord : Statement .nopZeroWord := by intro alt _; decide
theorem nopOnesWord : Statement .nopOnesWord := by intro alt _; decide
theorem nopOther (word : Word) : Statement (.nopOther word) := by
  intro alt h
  have hn : namedOpcodes.contains (opcodeOf word) = false := by
    simp only [Instr.wf, Bool.and_eq_true, Bool.not_eq_true'] at h; exact h.2
  show isAluClass (opcodeOf word) = false
  rw [Bool.eq_false_iff]
  intro ha
  rcases (isAluClass_iff _).mp ha with h1 | h1 <;> (rw [h1] at hn; revert hn; decide)

end Sys2Proof.Laws.AluClass
end

