-- ==== Sys2Proof/Laws/Registers.lean ====
section
/-! SUPPORT. The register file's two ports, against each other (R16, R17), and what Write-Back does to it (R100). -/

namespace Sys2Proof.Machine

@[simp] theorem readReg_zero (s : State) : s.readReg 0 = 0 := by simp [State.readReg]

/-- Two registers share a cell only if they are the same register, index 0 apart. -/
theorem cellOf_injective {i j : RegIx} (hi : i ≠ 0) (hj : j ≠ 0) (h : cellOf i = cellOf j) : i = j := by
  have hi' : i.toNat ≠ 0 := fun h0 => hi (BitVec.eq_of_toNat_eq h0)
  have hj' : j.toNat ≠ 0 := fun h0 => hj (BitVec.eq_of_toNat_eq h0)
  have hc : i.toNat - 1 = j.toNat - 1 := congrArg Fin.val h
  exact BitVec.eq_of_toNat_eq (by omega)

/-- A read after a write: the value written, at the register written unless it is x0; elsewhere what was there. -/
theorem readReg_writeReg (s : State) (i j : RegIx) (v : Word) :
    (s.writeReg i v).readReg j = if j = i ∧ i ≠ 0 then v else s.readReg j := by
  by_cases hi : i = 0
  · rw [State.writeReg, if_pos hi, if_neg (fun h => h.2 hi)]
  rw [State.writeReg, if_neg hi]
  by_cases hj : j = 0
  · subst hj
    rw [if_neg (fun h => hi h.1.symm), readReg_zero, readReg_zero]
  by_cases hij : j = i
  · subst hij
    rw [if_pos ⟨rfl, hi⟩, State.readReg, if_neg hj]
    exact Vector.getElem_set_self _
  · have hc : (cellOf i).val ≠ (cellOf j).val := fun h => hij (cellOf_injective hj hi (Fin.ext h.symm))
    rw [if_neg (fun h => hij h.1), State.readReg, State.readReg, if_neg hj, if_neg hj]
    exact Vector.getElem_set_ne (cellOf i).isLt (cellOf j).isLt hc

/-- A register reads alike in two states with the same register file. -/
theorem readReg_congr {s t : State} (h : t.regs = s.regs) (i : RegIx) : t.readReg i = s.readReg i := by
  simp [State.readReg, h]

/-- What Write-Back leaves in each register (R100). -/
theorem readReg_commit (s : State) (r : ExecRecord) (j : RegIx) :
    (s.commit r).readReg j = if r.isAluOp = true ∧ j = r.rd ∧ r.rd ≠ 0 then r.aluResult else s.readReg j := by
  unfold State.commit
  by_cases hc : (r.isAluOp && r.rd != 0) = true
  · rw [if_pos hc, readReg_writeReg]
    simp_all
  · rw [if_neg hc, if_neg (by simp_all)]

/-- A register after a slot (R108, R109). -/
theorem readReg_afterSlot (s : State) (w : Word) (r : ExecRecord) (n : Nat) (j : RegIx) :
    (s.afterSlot w r n).readReg j = (s.commit (s.retiring r)).readReg j :=
  readReg_congr rfl j

/-- With the default `WB_PHASE` an instruction commits its own record (R108). -/
theorem retiring_default {s : State} (h : s.cfg.wbPhase = .writeBack) (r : ExecRecord) : s.retiring r = r := by
  simp [State.retiring, h]

/-- With the source's wiring it commits the record of the instruction before (R109). -/
theorem retiring_delayed {s : State} (h : s.cfg.wbPhase = .memoryAccess) (r : ExecRecord) :
    s.retiring r = s.maStage.cur := by
  simp [State.retiring, h]

end Sys2Proof.Machine
end

