-- ==== Sys2Proof/Laws/Renaming.lean ====
section
/-! SUPPORT. No register but x0 has a special role (R19): whatever register the 31 others are renamed to, every instruction
does with the renamed registers what it did with the first. A model in which an instruction read or wrote a register its
word does not name (a link register, a stack pointer) would not have this law. -/

namespace Sys2Proof

/-- An instruction with the registers it acts on renamed (R110, R111 to R113, R117); a non-ALU-class word acts on none
(R122). -/
def Instr.renameRegs (σ : RegIx → RegIx) : Instr → Instr
  | .addi rd rs1 imm => .addi (σ rd) (σ rs1) imm
  | .add rd rs1 rs2 funct7 => .add (σ rd) (σ rs1) (σ rs2) funct7
  | .sub rd rs1 rs2 funct7 => .sub (σ rd) (σ rs1) (σ rs2) funct7
  | .undefOpimm001 rd other => .undefOpimm001 (σ rd) other
  | .undefOpimm010 rd other => .undefOpimm010 (σ rd) other
  | .undefOpimm011 rd other => .undefOpimm011 (σ rd) other
  | .undefOpimm100 rd other => .undefOpimm100 (σ rd) other
  | .undefOpimm101 rd other => .undefOpimm101 (σ rd) other
  | .undefOpimm110 rd other => .undefOpimm110 (σ rd) other
  | .undefOpimm111 rd other => .undefOpimm111 (σ rd) other
  | .undefOp001 rd other => .undefOp001 (σ rd) other
  | .undefOp010 rd other => .undefOp010 (σ rd) other
  | .undefOp011 rd other => .undefOp011 (σ rd) other
  | .undefOp100 rd other => .undefOp100 (σ rd) other
  | .undefOp101 rd other => .undefOp101 (σ rd) other
  | .undefOp110 rd other => .undefOp110 (σ rd) other
  | .undefOp111 rd other => .undefOp111 (σ rd) other
  | .nopLoad other => .nopLoad other
  | .nopStore other => .nopStore other
  | .nopBranch other => .nopBranch other
  | .nopJal other => .nopJal other
  | .nopJalr other => .nopJalr other
  | .nopLui other => .nopLui other
  | .nopAuipc other => .nopAuipc other
  | .nopMiscMem other => .nopMiscMem other
  | .nopSystem other => .nopSystem other
  | .nopLoadFp other => .nopLoadFp other
  | .nopStoreFp other => .nopStoreFp other
  | .nopAmo other => .nopAmo other
  | .nopOpImm32 other => .nopOpImm32 other
  | .nopOp32 other => .nopOp32 other
  | .nopMadd other => .nopMadd other
  | .nopMsub other => .nopMsub other
  | .nopNmsub other => .nopNmsub other
  | .nopNmadd other => .nopNmadd other
  | .nopOpFp other => .nopOpFp other
  | .nopZeroWord => .nopZeroWord
  | .nopOnesWord => .nopOnesWord
  | .nopOther word => .nopOther word

end Sys2Proof

namespace Sys2Proof.Machine

/-- Two Execution Result Records that write the same value to renamed registers, or write none. -/
def ExecRecord.Renamed (σ : RegIx → RegIx) (r r' : ExecRecord) : Prop :=
  r'.isAluOp = r.isAluOp ∧ (r.isAluOp = true → r'.rd = σ r.rd ∧ r'.aluResult = r.aluResult)

/-- Two states that hold the same values in renamed registers, with the record still to be retired (R109) renamed too. -/
structure State.Renamed (σ : RegIx → RegIx) (s s' : State) : Prop where
  cfg     : s'.cfg = s.cfg
  pc      : s'.pc = s.pc
  regs    : ∀ i, s'.readReg (σ i) = s.readReg i
  pending : s.maStage.cur.Renamed σ s'.maStage.cur
  draws   : s'.draws.cur = s.draws.cur

variable {σ : RegIx → RegIx} {s s' : State}

/-- Records with the ALU-class flag: the same value for the renamed register. -/
theorem ExecRecord.renamed_of_alu (σ : RegIx → RegIx) (rd : RegIx) {v v' : Word} (hv : v' = v) :
    ExecRecord.Renamed σ { aluResult := v, rd := rd, isAluOp := true } { aluResult := v', rd := σ rd, isAluOp := true } :=
  ⟨rfl, fun _ => ⟨rfl, hv⟩⟩

/-- Records without the flag write no register, whatever else they hold. -/
theorem ExecRecord.renamed_of_not_alu (σ : RegIx → RegIx) (rd rd' : RegIx) (v v' : Word) :
    ExecRecord.Renamed σ { aluResult := v, rd := rd, isAluOp := false } { aluResult := v', rd := rd', isAluOp := false } :=
  ⟨rfl, Bool.noConfusion⟩

/-- Write-Back treats the 31 registers alike: the renamed record writes the renamed register. -/
theorem readReg_commit_renamed (h0 : σ 0 = 0) (hinj : Function.Injective σ) (h : s.Renamed σ s') {r r' : ExecRecord}
    (hr : r.Renamed σ r') (j : RegIx) : (s'.commit r').readReg (σ j) = (s.commit r).readReg j := by
  rw [readReg_commit, readReg_commit, h.regs, hr.1]
  by_cases ha : r.isAluOp = true
  · have hz : σ r.rd ≠ 0 ↔ r.rd ≠ 0 := by rw [← h0, hinj.ne_iff, h0]
    rw [(hr.2 ha).1, (hr.2 ha).2]
    simp only [hz, hinj.eq_iff]
  · rw [if_neg fun hc => ha hc.1, if_neg fun hc => ha hc.1]

/-- The slot treats the 31 registers alike, for either `WB_PHASE`. -/
theorem afterSlot_renamed (h0 : σ 0 = 0) (hinj : Function.Injective σ) (h : s.Renamed σ s') (w w' : Word)
    {r r' : ExecRecord} (hr : r.Renamed σ r') {n n' : Nat} (hn : n' = n) :
    (s.afterSlot w r n).Renamed σ (s'.afterSlot w' r' n') := by
  have hret : (s.retiring r).Renamed σ (s'.retiring r') := by
    unfold State.retiring
    rw [h.cfg]
    cases s.cfg.wbPhase with
    | writeBack => exact hr
    | memoryAccess => exact h.pending
  refine ⟨?_, ?_, fun j => ?_, hr, hn⟩
  · rw [State.afterSlot, State.afterSlot, commit_cfg, commit_cfg, h.cfg]
  · exact congrArg (· + 4) h.pc
  · rw [readReg_afterSlot, readReg_afterSlot]
    exact readReg_commit_renamed h0 hinj h hret j

/-- An instruction with a result: the renamed one gives the renamed register the same result. -/
theorem slotWithResult_renamed (h0 : σ 0 = 0) (hinj : Function.Injective σ) (h : s.Renamed σ s') (i i' : Instr)
    (rd : RegIx) {v v' : Word} (hv : v' = v) :
    ∃ t t', slotWithResult i rd v s = .next t ∧ slotWithResult i' (σ rd) v' s' = .next t' ∧ t.Renamed σ t' :=
  ⟨_, _, rfl, rfl, afterSlot_renamed h0 hinj h _ _ (ExecRecord.renamed_of_alu σ rd hv) h.draws⟩

/-- An ALU-class instruction without a result: the renamed one gives the renamed register the same free value. -/
theorem slotWithFreeResult_renamed (h0 : σ 0 = 0) (hinj : Function.Injective σ) (h : s.Renamed σ s') (i i' : Instr)
    (rd : RegIx) :
    ∃ t t', slotWithFreeResult i rd s = .next t ∧ slotWithFreeResult i' (σ rd) s' = .next t' ∧ t.Renamed σ t' :=
  ⟨_, _, rfl, rfl, afterSlot_renamed h0 hinj h _ _ (ExecRecord.renamed_of_alu σ rd (congrArg Config.freeWord h.draws))
    (congrArg (· + 1) h.draws)⟩

/-- A non-ALU-class instruction acts on no register, so it is its own renaming. -/
theorem slotWithoutResult_renamed (h0 : σ 0 = 0) (hinj : Function.Injective σ) (h : s.Renamed σ s') (i i' : Instr) :
    ∃ t t', slotWithoutResult i s = .next t ∧ slotWithoutResult i' s' = .next t' ∧ t.Renamed σ t' :=
  ⟨_, _, rfl, rfl, afterSlot_renamed h0 hinj h _ _ (ExecRecord.renamed_of_not_alu σ _ _ _ _) (congrArg (· + 1) h.draws)⟩

/-- R19: the hardware gives no register but x0 a special role. For every renaming of the registers that fixes x0, the
renamed instruction on the renamed state completes as the instruction does on the state, and leaves renamed states. -/
theorem no_register_but_zero_is_special (h0 : σ 0 = 0) (hinj : Function.Injective σ) (h : s.Renamed σ s') (i : Instr) :
    ∃ t t', exec i s = .next t ∧ exec (i.renameRegs σ) s' = .next t' ∧ t.Renamed σ t' := by
  cases i with
  | addi rd rs1 imm => exact slotWithResult_renamed h0 hinj h _ _ rd (by rw [h.regs])
  | add rd rs1 rs2 funct7 => exact slotWithResult_renamed h0 hinj h _ _ rd (by rw [h.regs, h.regs])
  | sub rd rs1 rs2 funct7 => exact slotWithResult_renamed h0 hinj h _ _ rd (by rw [h.regs, h.regs])
  | _ => first
    | exact slotWithoutResult_renamed h0 hinj h _ _
    | exact slotWithFreeResult_renamed h0 hinj h _ _ _

end Sys2Proof.Machine
end

