-- ==== Sys2Proof/Laws/Rows.lean ====
section
/-! SUPPORT. A word is its fields put together (R66), and what a row's mask and match say of the fields (R84). -/

namespace Sys2Proof

/-! ## A word from its fields -/

theorem immediateForm_fields (w : Word) :
    immediateForm (immOf w) (rs1Of w) (funct3Of w) (rdOf w) (opcodeOf w) = w := by
  apply BitVec.eq_of_getLsbD_eq
  intro i hi
  simp only [immediateForm, immOf, rs1Of, funct3Of, rdOf, opcodeOf, BitVec.getLsbD_append,
      BitVec.getLsbD_extractLsb']
  by_cases h0 : i < 7
  · simp [h0]
  by_cases h1 : i < 12
  · simp [h0, show i - 7 < 5 by omega, show 7 + (i - 7) = i by omega]
  by_cases h2 : i < 15
  · simp [h0, show ¬ i - 7 < 5 by omega, show i - 7 - 5 < 3 by omega, show 12 + (i - 7 - 5) = i by omega]
  by_cases h3 : i < 20
  · simp [h0, show ¬ i - 7 < 5 by omega, show ¬ i - 7 - 5 < 3 by omega, show i - 7 - 5 - 3 < 5 by omega,
      show 15 + (i - 7 - 5 - 3) = i by omega]
  · simp [h0, show ¬ i - 7 < 5 by omega, show ¬ i - 7 - 5 < 3 by omega, show ¬ i - 7 - 5 - 3 < 5 by omega,
      show i - 7 - 5 - 3 - 5 < 12 by omega, show 20 + (i - 7 - 5 - 3 - 5) = i by omega]

theorem registerForm_fields (w : Word) :
    registerForm (funct7Of w) (rs2Of w) (rs1Of w) (funct3Of w) (rdOf w) (opcodeOf w) = w := by
  apply BitVec.eq_of_getLsbD_eq
  intro i hi
  simp only [registerForm, funct7Of, rs2Of, rs1Of, funct3Of, rdOf, opcodeOf, BitVec.getLsbD_append,
      BitVec.getLsbD_extractLsb']
  by_cases h0 : i < 7
  · simp [h0]
  by_cases h1 : i < 12
  · simp [h0, show i - 7 < 5 by omega, show 7 + (i - 7) = i by omega]
  by_cases h2 : i < 15
  · simp [h0, show ¬ i - 7 < 5 by omega, show i - 7 - 5 < 3 by omega, show 12 + (i - 7 - 5) = i by omega]
  by_cases h3 : i < 20
  · simp [h0, show ¬ i - 7 < 5 by omega, show ¬ i - 7 - 5 < 3 by omega, show i - 7 - 5 - 3 < 5 by omega,
      show 15 + (i - 7 - 5 - 3) = i by omega]
  by_cases h4 : i < 25
  · simp [h0, show ¬ i - 7 < 5 by omega, show ¬ i - 7 - 5 < 3 by omega, show ¬ i - 7 - 5 - 3 < 5 by omega,
      show i - 7 - 5 - 3 - 5 < 5 by omega, show 20 + (i - 7 - 5 - 3 - 5) = i by omega]
  · simp [h0, show ¬ i - 7 < 5 by omega, show ¬ i - 7 - 5 < 3 by omega, show ¬ i - 7 - 5 - 3 < 5 by omega,
      show ¬ i - 7 - 5 - 3 - 5 < 5 by omega, show i - 7 - 5 - 3 - 5 - 5 < 7 by omega,
      show 25 + (i - 7 - 5 - 3 - 5 - 5) = i by omega]

theorem unimplementedForm_fields (w : Word) :
    unimplementedForm (upper17Of w) (funct3Of w) (rdOf w) (opcodeOf w) = w := by
  apply BitVec.eq_of_getLsbD_eq
  intro i hi
  simp only [unimplementedForm, upper17Of, funct3Of, rdOf, opcodeOf, BitVec.getLsbD_append,
      BitVec.getLsbD_extractLsb']
  by_cases h0 : i < 7
  · simp [h0]
  by_cases h1 : i < 12
  · simp [h0, show i - 7 < 5 by omega, show 7 + (i - 7) = i by omega]
  by_cases h2 : i < 15
  · simp [h0, show ¬ i - 7 < 5 by omega, show i - 7 - 5 < 3 by omega, show 12 + (i - 7 - 5) = i by omega]
  · simp [h0, show ¬ i - 7 < 5 by omega, show ¬ i - 7 - 5 < 3 by omega, show i - 7 - 5 - 3 < 17 by omega,
      show 15 + (i - 7 - 5 - 3) = i by omega]

theorem opcodeForm_fields (w : Word) :
    opcodeForm (upper25Of w) (opcodeOf w) = w := by
  apply BitVec.eq_of_getLsbD_eq
  intro i hi
  simp only [opcodeForm, upper25Of, opcodeOf, BitVec.getLsbD_append, BitVec.getLsbD_extractLsb']
  by_cases h0 : i < 7
  · simp [h0]
  · simp [h0, show i - 7 < 25 by omega, show 7 + (i - 7) = i by omega]

/-! ## Mask and match -/

/-- Two concatenations at the same place are equal only if their parts are. -/
theorem append_eq_append {v w : Nat} {a c : BitVec v} {b d : BitVec w} (h : a ++ b = c ++ d) : a = c ∧ b = d := by
  constructor
  · have := congrArg (fun z => z.extractLsb' w v) h
    simpa only [BitVec.extractLsb'_append_eq_of_le (Nat.le_refl w), Nat.sub_self, BitVec.extractLsb'_eq_self] using this
  · have := congrArg (fun z => z.extractLsb' 0 w) h
    have hw : 0 + w ≤ w := by omega
    simpa only [BitVec.extractLsb'_append_eq_of_add_le hw, BitVec.extractLsb'_eq_self] using this

/-- Masking a word form by form masks its fields. -/
theorem opcodeForm_and (u v : BitVec 25) (o p : BitVec 7) :
    opcodeForm u o &&& opcodeForm v p = opcodeForm (u &&& v) (o &&& p) :=
  BitVec.and_append
theorem unimplementedForm_and (u v : BitVec 17) (f g : BitVec 3) (d e : RegIx) (o p : BitVec 7) :
    unimplementedForm u f d o &&& unimplementedForm v g e p =
      unimplementedForm (u &&& v) (f &&& g) (d &&& e) (o &&& p) := by
  simp only [unimplementedForm, ← BitVec.and_append]
theorem registerForm_and (u v : BitVec 7) (s t q r : RegIx) (f g : BitVec 3) (d e : RegIx) (o p : BitVec 7) :
    registerForm u s q f d o &&& registerForm v t r g e p =
      registerForm (u &&& v) (s &&& t) (q &&& r) (f &&& g) (d &&& e) (o &&& p) := by
  simp only [registerForm, ← BitVec.and_append]

/-- Equal words of one form have equal fields. -/
theorem opcodeForm_inj {u v : BitVec 25} {o p : BitVec 7} (h : opcodeForm u o = opcodeForm v p) : u = v ∧ o = p :=
  append_eq_append h
theorem unimplementedForm_inj {u v : BitVec 17} {f g : BitVec 3} {d e : RegIx} {o p : BitVec 7}
    (h : unimplementedForm u f d o = unimplementedForm v g e p) : u = v ∧ f = g ∧ d = e ∧ o = p := by
  obtain ⟨h1, ho⟩ := append_eq_append h
  obtain ⟨h2, hd⟩ := append_eq_append h1
  obtain ⟨hu, hf⟩ := append_eq_append h2
  exact ⟨hu, hf, hd, ho⟩
theorem registerForm_inj {u v : BitVec 7} {s t q r : RegIx} {f g : BitVec 3} {d e : RegIx} {o p : BitVec 7}
    (h : registerForm u s q f d o = registerForm v t r g e p) : u = v ∧ s = t ∧ q = r ∧ f = g ∧ d = e ∧ o = p := by
  obtain ⟨h1, ho⟩ := append_eq_append h
  obtain ⟨h2, hd⟩ := append_eq_append h1
  obtain ⟨h3, hf⟩ := append_eq_append h2
  obtain ⟨h4, hq⟩ := append_eq_append h3
  obtain ⟨hu, hs⟩ := append_eq_append h4
  exact ⟨hu, hs, hq, hf, hd, ho⟩

theorem and_none {n : Nat} (x : BitVec n) : x &&& 0 = 0 := BitVec.and_zero
theorem and_ones_3 (x : BitVec 3) : x &&& 7#3 = x := BitVec.and_allOnes
theorem and_ones_7 (x : BitVec 7) : x &&& 0x7F#7 = x := BitVec.and_allOnes

/-- A row that fixes the opcode (R84, mask 0x0000007F). -/
theorem opcode_row (w : Word) (o : BitVec 7) : w &&& 0x0000007F#32 = opcodeForm 0 o ↔ opcodeOf w = o := by
  have hm : 0x0000007F#32 = opcodeForm 0 0x7F#7 := by decide
  have hw : w &&& 0x0000007F#32 = opcodeForm 0 (opcodeOf w) := by
    conv_lhs => rw [hm, ← opcodeForm_fields w, opcodeForm_and, and_ones_7, and_none]
  rw [hw]
  exact ⟨fun h => (opcodeForm_inj h).2, fun h => by rw [h]⟩

/-- A row that fixes opcode and funct3 (R74, R118, R119, mask 0x0000707F). -/
theorem funct3_row (w : Word) (f : BitVec 3) (o : BitVec 7) :
    w &&& 0x0000707F#32 = unimplementedForm 0 f 0 o ↔ (opcodeOf w = o ∧ funct3Of w = f) := by
  have hm : 0x0000707F#32 = unimplementedForm 0 7#3 0 0x7F#7 := by decide
  have hw : w &&& 0x0000707F#32 = unimplementedForm 0 (funct3Of w) 0 (opcodeOf w) := by
    conv_lhs => rw [hm, ← unimplementedForm_fields w, unimplementedForm_and, and_ones_7, and_ones_3,
      and_none, and_none]
  rw [hw]
  exact ⟨fun h => ⟨(unimplementedForm_inj h).2.2.2, (unimplementedForm_inj h).2.1⟩, fun h => by rw [h.1, h.2]⟩

/-- The alternate bit alone, as a mask of funct7. -/
def AltBit.funct7Mask : AltBit → BitVec 7
  | .bit29 => 0x10
  | .bit30 => 0x20

/-- Masked to the alternate bit, funct7 is zero or the mask. -/
theorem funct7_and_mask (alt : AltBit) (f : BitVec 7) :
    f &&& alt.funct7Mask = if alt.isSet f then alt.funct7Mask else 0 := by
  revert f; cases alt <;> decide

/-- A row that fixes opcode, funct3 and the alternate bit (R74: ADD and SUB). -/
theorem alternate_row (alt : AltBit) (w : Word) (f : BitVec 3) (o : BitVec 7) (b : Bool) :
    w &&& registerForm alt.funct7Mask 0 0 7#3 0 0x7F#7 =
        registerForm (if b then alt.funct7Mask else 0) 0 0 f 0 o ↔
      (opcodeOf w = o ∧ funct3Of w = f ∧ alt.isSet (funct7Of w) = b) := by
  have hw : w &&& registerForm alt.funct7Mask 0 0 7#3 0 0x7F#7 =
      registerForm (if alt.isSet (funct7Of w) then alt.funct7Mask else 0) 0 0 (funct3Of w) 0 (opcodeOf w) := by
    conv_lhs => rw [← registerForm_fields w, registerForm_and, and_ones_7, and_ones_3, funct7_and_mask,
      and_none, and_none, and_none]
  rw [hw]
  constructor
  · intro h
    obtain ⟨h7, -, -, h3, -, ho⟩ := registerForm_inj h
    refine ⟨ho, h3, ?_⟩
    revert h7
    generalize alt.isSet (funct7Of w) = c
    cases alt <;> cases c <;> cases b <;> decide
  · rintro ⟨rfl, rfl, rfl⟩; rfl

end Sys2Proof
end

