-- ==== Sys2Proof/Laws/Slot.lean ====
section
/-! SUPPORT. What an instruction's slot, a cycle and a step can do, each said once. -/

namespace Sys2Proof.Machine

/-- Every instruction's meaning is one slot of its own word (R108), whose record has the word's destination. -/
theorem exec_eq_afterSlot (i : Instr) (s : State) : ∃ r n, exec i s = .next (s.afterSlot (encode i) r n) := by
  cases i <;> exact ⟨_, _, rfl⟩

/-- What a slot leaves alone. -/
theorem surroundings_afterSlot (s : State) (w : Word) (r : ExecRecord) (n : Nat) :
    SurroundingsKept s (s.afterSlot w r n) :=
  ⟨by simp, fun _ => by simp, by simp, by simp, by simp⟩

/-- What a cycle can do (R88, R107, R147). -/
theorem cycle_cases (s : State) :
    (∃ f, s.status = .faulted f ∧ cycle s = .fault f) ∨
    (∃ f, s.status = .running ∧ s.phase = .fetch ∧ busRead s s.pc = .error f ∧ cycle s = .fault f) ∨
    (∃ w, s.status = .running ∧ s.phase = .fetch ∧ busRead s s.pc = .ok w ∧
      cycle s = .next (advancePhase (latchAll (computeRest
        { s with ifStage := { s.ifStage with nxt := { pc := s.pc + 4, instr := w } } })))) ∨
    (s.status = .running ∧ s.phase ≠ .fetch ∧ cycle s = .next (advancePhase (latchAll (computeRest s)))) := by
  unfold cycle computeIF
  cases hs : s.status with
  | faulted f => exact .inl ⟨f, rfl, rfl⟩
  | running =>
    right
    by_cases hp : s.phase = .fetch
    · cases hb : busRead s s.pc with
      | error f => exact .inl ⟨f, rfl, hp, rfl, by simp [hp]⟩
      | ok w => exact .inr (.inl ⟨w, rfl, hp, rfl, by simp [hp]⟩)
    · exact .inr (.inr ⟨rfl, hp, by simp [hp]⟩)

/-- What a step can do (R108, R146, R147). -/
theorem step_cases (s : State) :
    (∃ f, s.status = .faulted f ∧ step s = .fault f) ∨
    (∃ f, s.AtSlotStart ∧ busRead s s.pc = .error f ∧ step s = .fault f) ∨
    (∃ w, s.AtSlotStart ∧ busRead s s.pc = .ok w ∧ step s = exec (decode s.cfg.altBit w) s) ∨
    (s.status = .running ∧ s.phase ≠ .fetch ∧ step s = finishOpenSlot s) := by
  unfold step
  cases hs : s.status with
  | faulted f => exact .inl ⟨f, rfl, rfl⟩
  | running =>
    right
    cases hp : s.phase with
    | fetch =>
      rcases fetchInstr_cases s with ⟨f, hb, hf⟩ | ⟨w, hb, hf⟩
      · exact .inl ⟨f, ⟨hs, hp⟩, hb, by rw [hf]⟩
      · exact .inr (.inl ⟨w, ⟨hs, hp⟩, hb, by rw [hf]⟩)
    | decode => exact .inr (.inr ⟨rfl, by simp, rfl⟩)
    | execute => exact .inr (.inr ⟨rfl, by simp, rfl⟩)
    | memoryAccess => exact .inr (.inr ⟨rfl, by simp, rfl⟩)
    | writeBack => exact .inr (.inr ⟨rfl, by simp, rfl⟩)

section
variable {s : State}

/-- The four stages after IF in a Fetch cycle: all stalled (R87, R89). -/
theorem computeRest_fetch (h : s.phase = .fetch) : computeRest s = s := by
  have hw : s.phase ≠ writeBackPhase s.cfg := by
    rw [h]; unfold writeBackPhase; split <;> simp
  simp [computeRest, computeDE, computeEX, computeMA, computeWB, h, h ▸ hw]

/-- In a Decode cycle only DE computes (R89). -/
theorem computeRest_decode (h : s.phase = .decode) :
    computeRest s = { s with deStage := { s.deStage with nxt := decodedRecord s s.ifStage.cur.instr } } := by
  have hw : Phase.decode ≠ writeBackPhase s.cfg := by
    unfold writeBackPhase; split <;> simp
  simp [computeRest, computeDE, computeEX, computeMA, computeWB, h, hw]

/-- In an Execute cycle only EX computes (R89). -/
theorem computeRest_execute (h : s.phase = .execute) : computeRest s = computeEX s := by
  have hw : Phase.execute ≠ writeBackPhase s.cfg := by
    unfold writeBackPhase; split <;> simp
  have hd : computeDE s = s := by simp [computeDE, h]
  have hm : computeMA (computeEX s) = computeEX s := by simp [computeMA, h]
  rw [computeRest, hd, hm, computeWB, if_neg (by simpa [h] using hw)]

/-- In a Memory-Access cycle MA computes, and WB too when it is wired to that phase (R89). -/
theorem computeRest_memoryAccess (h : s.phase = .memoryAccess) :
    computeRest s = computeWB { s with maStage := { s.maStage with nxt := s.exStage.cur } } := by
  simp [computeRest, computeDE, computeEX, computeMA, h]

/-- In a Write-Back cycle WB computes, unless it is wired to the phase before (R89). -/
theorem computeRest_writeBack (h : s.phase = .writeBack) : computeRest s = computeWB s := by
  simp [computeRest, computeDE, computeEX, computeMA, h]

end

/-! ## What the stages leave alone (R86, R103) -/

/-- The latch point of a pair that agrees changes nothing. -/
theorem Latch.advance_of_agree {α : Type} {l : Latch α} (h : l.nxt = l.cur) : l.advance = l := by
  cases l; simp_all [Latch.advance]

/-- Write-Back changes the register file and nothing else. -/
theorem commit_eq (s : State) (r : ExecRecord) : s.commit r = { s with regs := (s.commit r).regs } := by
  unfold State.commit State.writeReg
  repeat' split
  all_goals rfl

/-- What Write-Back writes depends on the register file alone. -/
theorem commit_regs_congr {s t : State} (h : t.regs = s.regs) (r : ExecRecord) : (t.commit r).regs = (s.commit r).regs := by
  unfold State.commit State.writeReg
  repeat' split
  all_goals simp [h]

/-- Write-Back is wired to one of the last two phases (R87). -/
theorem writeBackPhase_ne (c : Config) :
    writeBackPhase c ≠ .fetch ∧ writeBackPhase c ≠ .decode ∧ writeBackPhase c ≠ .execute := by
  unfold writeBackPhase; cases c.wbPhase <;> simp

/-- EX `compute()` assigns the next record of EX and the next draw number (R95). -/
theorem computeEX_eq (s : State) : ∃ r n, computeEX s =
    { s with exStage := { s.exStage with nxt := r }, draws := { s.draws with nxt := n } } := by
  unfold computeEX
  split
  · dsimp only
    split
    · exact ⟨_, s.draws.nxt, rfl⟩
    · exact ⟨_, _, rfl⟩
  · exact ⟨s.exStage.nxt, s.draws.nxt, rfl⟩

/-- WB `compute()` writes the register file in its phase and does nothing in the others (R100, R104). -/
theorem computeWB_eq (s : State) : ∃ regs, computeWB s = { s with regs := regs } ∧
    (s.phase ≠ writeBackPhase s.cfg → regs = s.regs) := by
  unfold computeWB
  split
  · exact ⟨_, commit_eq s _, fun h => absurd ‹_› h⟩
  · exact ⟨_, rfl, fun _ => rfl⟩

/-- What the `compute()` calls after IF's leave alone: a stage whose phase it is not keeps its pair (R104), and only
Write-Back's phase changes the register file. -/
theorem computeRest_frame (s : State) :
    (computeRest s).cfg = s.cfg ∧ (computeRest s).mem = s.mem ∧ (computeRest s).status = s.status ∧
    (computeRest s).phase = s.phase ∧ (computeRest s).ifStage = s.ifStage ∧
    (s.phase ≠ .decode → (computeRest s).deStage = s.deStage) ∧
    (s.phase ≠ .execute → (computeRest s).exStage = s.exStage ∧ (computeRest s).draws = s.draws) ∧
    (s.phase ≠ .memoryAccess → (computeRest s).maStage = s.maStage) ∧
    (s.phase ≠ writeBackPhase s.cfg → (computeRest s).regs = s.regs) := by
  cases hp : s.phase with
  | fetch => rw [computeRest_fetch hp]; simp [hp]
  | decode => rw [computeRest_decode hp]; simp [hp]
  | execute =>
    obtain ⟨r, n, h⟩ := computeEX_eq s
    rw [computeRest_execute hp, h]; simp [hp]
  | memoryAccess =>
    obtain ⟨regs, h, hr⟩ := computeWB_eq { s with maStage := { s.maStage with nxt := s.exStage.cur } }
    rw [computeRest_memoryAccess hp, h]; simpa [hp] using hr
  | writeBack =>
    obtain ⟨regs, h, hr⟩ := computeWB_eq s
    rw [computeRest_writeBack hp, h]; simpa [hp] using hr

/-- What a completed cycle does, whatever the phase: it is the latch point and the phase advance after five `compute()`
calls that left every stalled stage alone (R86, R88). -/
theorem cycle_next {s t : State} (h : cycle s = .next t) : s.status = .running ∧ ∃ u, t = advancePhase (latchAll u) ∧
    u.cfg = s.cfg ∧ u.mem = s.mem ∧ u.status = s.status ∧ u.phase = s.phase ∧
    (s.phase ≠ .fetch → u.ifStage = s.ifStage) ∧ (s.phase ≠ .decode → u.deStage = s.deStage) ∧
    (s.phase ≠ .execute → u.exStage = s.exStage ∧ u.draws = s.draws) ∧
    (s.phase ≠ .memoryAccess → u.maStage = s.maStage) ∧ (s.phase ≠ writeBackPhase s.cfg → u.regs = s.regs) := by
  rcases cycle_cases s with ⟨f, _, h'⟩ | ⟨f, _, _, _, h'⟩ | ⟨w, hs, hp, _, h'⟩ | ⟨hs, hp, h'⟩ <;> rw [h] at h' <;> cases h'
  · obtain ⟨g1, g2, g3, g4, -, g⟩ :=
      computeRest_frame { s with ifStage := { s.ifStage with nxt := { pc := s.pc + 4, instr := w } } }
    exact ⟨hs, _, rfl, g1, g2, g3, g4, fun hn => absurd hp hn, g⟩
  · obtain ⟨g1, g2, g3, g4, g5, g⟩ := computeRest_frame s
    exact ⟨hs, _, rfl, g1, g2, g3, g4, fun _ => g5, g⟩

/-- Outside Fetch a Running machine's cycle completes (R107). -/
theorem cycle_open {s : State} (hs : s.status = .running) (hp : s.phase ≠ .fetch) :
    cycle s = .next (advancePhase (latchAll (computeRest s))) := by
  rcases cycle_cases s with ⟨f, h, _⟩ | ⟨f, _, h, _⟩ | ⟨w, _, h, _⟩ | ⟨_, _, h⟩
  · rw [hs] at h; cases h
  · exact absurd h hp
  · exact absurd h hp
  · exact h

/-- A run of cycles in two parts. -/
theorem runCycles_add (a b : Nat) (s : State) : runCycles (a + b) s =
    (match runCycles a s with
      | .next t => runCycles b t
      | .fault f => .fault f
      | .refused r => .refused r) := by
  induction a generalizing s with
  | zero => rw [Nat.zero_add]; rfl
  | succ a ih =>
    rw [Nat.succ_add, runCycles, runCycles]
    cases cycle s with
    | next t => exact ih t
    | fault f => rfl
    | refused r => rfl

end Sys2Proof.Machine
end

