-- ==== Sys2Proof/Tests/Slice0.lean ====
section
/-! SUPPORT. Tests. Every expected value is from spec/ (the vectors S-n, V-n, P-n of spec/95_test_vectors.md, or a word put
together by hand from the field layout of R66 and R67), never the model's own answer. Each is about one step, or one slot
of five cycles, on a small state. The last part shows, for every statement with hypotheses, values that meet them. -/

namespace Sys2Proof.Tests

open Sys2Proof.Machine

/-! ## Helpers -/

/-- A test that holds for either `ALT_BIT`. -/
def forBoth (p : AltBit → Bool) : Bool := p .bit29 && p .bit30

/-- The default machine after reset, with the alternate bit given and some registers preloaded (R168). -/
def machine (alt : AltBit) (regs : List (RegIx × Word)) : State :=
  regs.foldl (fun s r => s.writeReg r.1 r.2) (State.initial { Config.standard with altBit := alt })

/-- The same machine with the source's wiring of Write-Back (R109). -/
def lateMachine (regs : List (RegIx × Word)) : State :=
  regs.foldl (fun s r => s.writeReg r.1 r.2) (State.initial { Config.standard with wbPhase := .memoryAccess })

/-- The state an outcome answers, if it answers one. -/
def stateOf : Result → Option State
  | .next t => some t
  | .fault _ => none
  | .refused _ => none

/-- The condition an outcome stopped with, if it did. -/
def faultOf : Result → Option Fault
  | .next _ => none
  | .fault f => some f
  | .refused _ => none

/-- A register after the first step from reset, when that step runs a word. -/
def after (alt : AltBit) (w : Nat) (regs : List (RegIx × Word)) (j : RegIx) : Option Word :=
  (stateOf (step ((machine alt regs).withFetchWord 32 w))).map (fun t => t.readReg j)

/-- A word changes no register of the first four, and moves the program counter on by 4. -/
def onlyPcMoves (w : Nat) : Bool :=
  let s := (machine .bit29 [(1, 0x20000000), (2, 2), (3, 0xAAAAAAAA)]).withFetchWord 32 w
  match step s with
  | .next t => t.pc == 0x10000004 && t.regs == s.regs && t.mem == s.mem && t.status == .running
  | .fault _ => false
  | .refused _ => false

/-- The machine after some cycles from reset with one word placed. -/
def inSlot (cycles w : Nat) : Option State := stateOf (runCycles cycles (State.reset.withFetchWord 32 w))

/-- A deployment whose program counter has run off the end of ROM (P-4, with the example map). -/
def offTheMap : State := { State.reset with ifStage := Latch.both { pc := 0x10001000, instr := 0 } }

/-- A deployment with a ROM of two words and a RAM of one (R41's smallest sizes, almost). -/
def tinyConfig : Config := { Config.standard with romSize := 8, ramSize := 4 }

/-! ## WellFormed: an ill-formed term for each check, and its well-formed neighbour -/

theorem test_wf_add_alternate_set_refused :
    (Instr.add 3 1 2 0x10).wf .bit29 = false ∧ (Instr.add 3 1 2 0x20).wf .bit30 = false := by decide
theorem test_wf_add_other_bits_free :
    (Instr.add 3 1 2 0x6F).wf .bit29 = true ∧ (Instr.add 3 1 2 0x5F).wf .bit30 = true := by decide
theorem test_wf_sub_alternate_clear_refused :
    (Instr.sub 3 1 2 0x20).wf .bit29 = false ∧ (Instr.sub 3 1 2 0x10).wf .bit30 = false := by decide
theorem test_wf_nopOther_constant_words_refused :
    forBoth (fun alt => !(Instr.nopOther 0).wf alt && !(Instr.nopOther 0xFFFFFFFF).wf alt) = true := by decide
theorem test_wf_nopOther_named_opcode_refused :
    forBoth (fun alt => !(Instr.nopOther 0x00000013).wf alt && !(Instr.nopOther 0x00000073).wf alt) = true := by decide
theorem test_wf_nopOther_accepted : forBoth (fun alt => (Instr.nopOther 0x00000001).wf alt) = true := by decide

/-! ## Decode: a word for every row, its bits written out by R66 and R67 -/

/-- S-1, with the literal corrected as spec/90_conflicts.md C1 says. -/
theorem test_decode_addi : forBoth (fun alt =>
    decode alt 0b111111111111_00001_000_00011_0010011#32 = .addi 3 1 0xFFF) = true := by decide
/-- V-5 and V-7: RISC-V's `sub` adds under the default. -/
theorem test_decode_add :
    decode .bit29 0b0000000_00010_00001_000_00100_0110011#32 = .add 4 1 2 0x00 ∧
    decode .bit29 0b0100000_00010_00001_000_00011_0110011#32 = .add 3 1 2 0x20 ∧
    decode .bit30 0b0010000_00010_00001_000_00011_0110011#32 = .add 3 1 2 0x10 := by decide
/-- V-6 and V-7. -/
theorem test_decode_sub :
    decode .bit29 0b0110000_00010_00001_000_00101_0110011#32 = .sub 5 1 2 0x30 ∧
    decode .bit29 0b0010000_00010_00001_000_00011_0110011#32 = .sub 3 1 2 0x10 ∧
    decode .bit30 0b0100000_00010_00001_000_00011_0110011#32 = .sub 3 1 2 0x20 := by decide
theorem test_decode_undefOpimm001 : forBoth (fun alt =>
    decode alt 0b00000000010000001_001_00011_0010011#32 = .undefOpimm001 3 0x00081) = true := by decide
theorem test_decode_undefOpimm010 : forBoth (fun alt =>
    decode alt 0b00000000000100001_010_00011_0010011#32 = .undefOpimm010 3 0x00021) = true := by decide
theorem test_decode_undefOpimm011 : forBoth (fun alt =>
    decode alt 0b00000000000100001_011_00011_0010011#32 = .undefOpimm011 3 0x00021) = true := by decide
theorem test_decode_undefOpimm100 : forBoth (fun alt =>
    decode alt 0b00001111111100001_100_00011_0010011#32 = .undefOpimm100 3 0x01FE1) = true := by decide
theorem test_decode_undefOpimm101 : forBoth (fun alt =>
    decode alt 0b01000000010000001_101_00011_0010011#32 = .undefOpimm101 3 0x08081) = true := by decide
theorem test_decode_undefOpimm110 : forBoth (fun alt =>
    decode alt 0b00001111111100001_110_00011_0010011#32 = .undefOpimm110 3 0x01FE1) = true := by decide
theorem test_decode_undefOpimm111 : forBoth (fun alt =>
    decode alt 0b00001111111100001_111_00011_0010011#32 = .undefOpimm111 3 0x01FE1) = true := by decide
theorem test_decode_undefOp001 : forBoth (fun alt =>
    decode alt 0b00000000001000001_001_00011_0110011#32 = .undefOp001 3 0x00041) = true := by decide
theorem test_decode_undefOp010 : forBoth (fun alt =>
    decode alt 0b00000000001000001_010_00011_0110011#32 = .undefOp010 3 0x00041) = true := by decide
theorem test_decode_undefOp011 : forBoth (fun alt =>
    decode alt 0b00000000001000001_011_00011_0110011#32 = .undefOp011 3 0x00041) = true := by decide
theorem test_decode_undefOp100 : forBoth (fun alt =>
    decode alt 0b00000000001000001_100_00011_0110011#32 = .undefOp100 3 0x00041) = true := by decide
/-- V-11's `0x4020D1B3`: the alternate bit makes no difference outside `funct3 = 000`. -/
theorem test_decode_undefOp101 : forBoth (fun alt =>
    decode alt 0b01000000001000001_101_00011_0110011#32 = .undefOp101 3 0x08041) = true := by decide
theorem test_decode_undefOp110 : forBoth (fun alt =>
    decode alt 0b00000000001000001_110_00011_0110011#32 = .undefOp110 3 0x00041) = true := by decide
theorem test_decode_undefOp111 : forBoth (fun alt =>
    decode alt 0b00000000001000001_111_00011_0110011#32 = .undefOp111 3 0x00041) = true := by decide
theorem test_decode_nopLoad : forBoth (fun alt =>
    decode alt 0b0000000000000000101000011_0000011#32 = .nopLoad 0x0000143) = true := by decide
theorem test_decode_nopStore : forBoth (fun alt =>
    decode alt 0b0000000000110000101000000_0100011#32 = .nopStore 0x0006140) = true := by decide
theorem test_decode_nopBranch : forBoth (fun alt =>
    decode alt 0b0000000000000000000000000_1100011#32 = .nopBranch 0) = true := by decide
/-- `0xDEADBEEF` (V-1). -/
theorem test_decode_nopJal : forBoth (fun alt =>
    decode alt 0b1101111010101101101111101_1101111#32 = .nopJal 0x1BD5B7D) = true := by decide
theorem test_decode_nopJalr : forBoth (fun alt =>
    decode alt 0b0000000000000000100000000_1100111#32 = .nopJalr 0x0000100) = true := by decide
theorem test_decode_nopLui : forBoth (fun alt =>
    decode alt 0b0001001000110100010100011_0110111#32 = .nopLui 0x02468A3) = true := by decide
theorem test_decode_nopAuipc : forBoth (fun alt =>
    decode alt 0b0000000000000000000000011_0010111#32 = .nopAuipc 0x0000003) = true := by decide
theorem test_decode_nopMiscMem : forBoth (fun alt =>
    decode alt 0b0000111111110000000000000_0001111#32 = .nopMiscMem 0x01FE000) = true := by decide
theorem test_decode_nopSystem : forBoth (fun alt =>
    decode alt 0b0011000000100000000000000_1110011#32 = .nopSystem 0x0604000) = true := by decide
theorem test_decode_nopLoadFp : forBoth (fun alt =>
    decode alt 0b1000000000000000000000001_0000111#32 = .nopLoadFp 0x1000001) = true := by decide
theorem test_decode_nopStoreFp : forBoth (fun alt =>
    decode alt 0b1000000000000000000000001_0100111#32 = .nopStoreFp 0x1000001) = true := by decide
theorem test_decode_nopAmo : forBoth (fun alt =>
    decode alt 0b1000000000000000000000001_0101111#32 = .nopAmo 0x1000001) = true := by decide
/-- V-3: bit 3 of the opcode keeps these two out of the ALU class. -/
theorem test_decode_nopOpImm32 : forBoth (fun alt =>
    decode alt 0b1000000000000000000000001_0011011#32 = .nopOpImm32 0x1000001) = true := by decide
theorem test_decode_nopOp32 : forBoth (fun alt =>
    decode alt 0b1000000000000000000000001_0111011#32 = .nopOp32 0x1000001) = true := by decide
theorem test_decode_nopMadd : forBoth (fun alt =>
    decode alt 0b1000000000000000000000001_1000011#32 = .nopMadd 0x1000001) = true := by decide
theorem test_decode_nopMsub : forBoth (fun alt =>
    decode alt 0b1000000000000000000000001_1000111#32 = .nopMsub 0x1000001) = true := by decide
theorem test_decode_nopNmsub : forBoth (fun alt =>
    decode alt 0b1000000000000000000000001_1001011#32 = .nopNmsub 0x1000001) = true := by decide
theorem test_decode_nopNmadd : forBoth (fun alt =>
    decode alt 0b1000000000000000000000001_1001111#32 = .nopNmadd 0x1000001) = true := by decide
theorem test_decode_nopOpFp : forBoth (fun alt =>
    decode alt 0b1000000000000000000000001_1010011#32 = .nopOpFp 0x1000001) = true := by decide
theorem test_decode_nopZeroWord : forBoth (fun alt => decode alt 0x00000000#32 = .nopZeroWord) = true := by decide
theorem test_decode_nopOnesWord : forBoth (fun alt => decode alt 0xFFFFFFFF#32 = .nopOnesWord) = true := by decide
/-- The opcodes of the two constant words, in words that are neither. -/
theorem test_decode_nopOther : forBoth (fun alt =>
    decode alt 0x00000080#32 = .nopOther 0x00000080 && decode alt 0x0000007F#32 = .nopOther 0x0000007F &&
    decode alt 0x00000001#32 = .nopOther 0x00000001) = true := by decide

/-- The bytes of a word, lowest address first (R55), and what follows them. -/
theorem test_decode_bytes :
    decodeBytes .bit29 [0x93, 0x81, 0xF0, 0xFF, 0x33] = .ok (.addi 3 1 0xFFF, [0x33]) ∧
    decodeBytes .bit29 [0x93, 0x81, 0xF0] = .error .truncated := by decide
theorem test_decodeTableWord :
    decodeTableWord 32 0x602082B3 = some (.sub 5 1 2 0x30) ∧ decodeTableWord 32 0 = some .nopZeroWord ∧
    decodeTableWord 33 0 = none := by decide

/-! ## Fields, sign extension and the ALU-class predicate -/

/-- V-2. -/
theorem test_sext12 : [0x000#12, 0x001#12, 0x7FF#12, 0x800#12, 0x801#12, 0xDEA#12, 0xFFE#12, 0xFFF#12].map sext12 =
    [0x00000000, 0x00000001, 0x000007FF, 0xFFFFF800, 0xFFFFF801, 0xFFFFFDEA, 0xFFFFFFFE, 0xFFFFFFFF] := by decide
/-- V-3. -/
theorem test_isAluClass :
    [0x13#7, 0x33#7, 0x03#7, 0x17#7, 0x1B#7, 0x23#7, 0x37#7, 0x3B#7, 0x53#7, 0x63#7, 0x73#7, 0x12#7, 0x32#7, 0x00#7,
      0x7F#7].filter isAluClass = [0x13#7, 0x33#7] := by decide
/-- V-1, the row of `0xDEADBEEF`. -/
theorem test_fields : DecodedRecord.FieldsOf
    { opcode := 0b1101111, rd := 29, funct3 := 0b011, rs1v := 0, rs2v := 0, imm := 0xDEA, funct7 := 0x6F, shamt := 10 }
    0xDEADBEEF ∧ rs1Of 0xDEADBEEF = 27 ∧ rs2Of 0xDEADBEEF = 10 := by decide

/-! ## The instructions -/

/-- V-4: overflow, carry, the immediate's sign, a source that is also the destination. -/
theorem test_addi :
    after .bit29 0xFFF08193 [(1, 0x01020304)] 3 = some 0x01020303 ∧
    after .bit29 0x00130313 [(6, 0x7FFFFFFF)] 6 = some 0x80000000 ∧
    after .bit29 0x80008093 [(1, 0x80000000)] 1 = some 0x7FFFF800 ∧
    after .bit29 0x06440493 [(8, 0xFFFFFFF0), (4, 0x77777777)] 9 = some 0x00000054 := by decide
/-- V-4: bits 29 and 30 do not subtract in the immediate form, and x0 stays zero. -/
theorem test_addi_alternate_bits_and_x0 :
    forBoth (fun alt => after alt 0x60008113 [(1, 1)] 2 = some 0x601) = true ∧
    after .bit29 0x00508013 [(1, 9)] 0 = some 0 ∧ after .bit29 0x00508013 [(1, 9)] 1 = some 9 := by decide
/-- V-5. -/
theorem test_add :
    after .bit29 0x00208233 [(1, 0x01020304), (2, 0x02030405)] 4 = some 0x03050709 ∧
    after .bit29 0x002081B3 [(1, 0xFFFFFFFF), (2, 1)] 3 = some 0 ∧
    after .bit29 0x001080B3 [(1, 0xC0000000)] 1 = some 0x80000000 := by decide
/-- V-7, the rows that tell the two values of `ALT_BIT` apart, from the side of ADD. -/
theorem test_add_by_alternate_bit :
    after .bit29 0x5E2081B3 [(1, 10), (2, 3)] 3 = some 13 ∧ after .bit30 0xBE2081B3 [(1, 10), (2, 3)] 3 = some 13 := by
  decide
/-- V-6. -/
theorem test_sub :
    after .bit29 0x602082B3 [(1, 0x01020304), (2, 0x02030405)] 5 = some 0xFEFEFEFF ∧
    after .bit29 0x602081B3 [(1, 0), (2, 1)] 3 = some 0xFFFFFFFF ∧
    after .bit29 0x60208133 [(1, 10), (2, 3)] 2 = some 7 := by decide
/-- V-7, from the side of SUB. -/
theorem test_sub_by_alternate_bit :
    after .bit29 0xBE2081B3 [(1, 10), (2, 3)] 3 = some 7 ∧ after .bit30 0x5E2081B3 [(1, 10), (2, 3)] 3 = some 7 := by
  decide

/-- V-11: the result is a free value, and nothing but x3 changes. -/
theorem test_undefOp111 : after .bit29 0x0020F1B3 [(1, 0x0F0F0F0F), (2, 0x00FF00FF)] 3 = some (Config.freeWord 0) ∧
    after .bit29 0x0020F1B3 [(1, 0x0F0F0F0F), (2, 0x00FF00FF)] 1 = some 0x0F0F0F0F := ⟨rfl, rfl⟩
/-- V-11: with `rd = 0` nothing is written. -/
theorem test_undefOp111_x0 : onlyPcMoves 0x0020F033 = true := by decide
theorem test_undefOpimm001 : after .bit29 0x00409193 [(1, 0x0F0F0F0F)] 3 = some (Config.freeWord 0) := rfl

/-- V-12. -/
theorem test_nopLoad : onlyPcMoves 0x0000A183 = true := by decide
theorem test_nopStore : onlyPcMoves 0x0030A023 = true := by decide
theorem test_nopBranch : onlyPcMoves 0x00000063 = true := by decide
theorem test_nopJal : onlyPcMoves 0x0000006F = true := by decide
theorem test_nopJalr : onlyPcMoves 0x00008067 = true := by decide
theorem test_nopLui : onlyPcMoves 0x123451B7 = true := by decide
theorem test_nopAuipc : onlyPcMoves 0x00000197 = true := by decide
theorem test_nopMiscMem : onlyPcMoves 0x0FF0000F = true := by decide
theorem test_nopSystem : onlyPcMoves 0x00000073 = true := by decide
theorem test_nopZeroWord : onlyPcMoves 0x00000000 = true := by decide
theorem test_nopOnesWord : onlyPcMoves 0xFFFFFFFF = true := by decide
theorem test_nopOther : onlyPcMoves 0x00000001 = true := by decide

/-! ## Cycles, Write-Back's phase, and the fault -/

/-- The first rows of the trace of P-1: each cycle changes one column, and x3 is written in cycle 5. -/
theorem test_trace_of_the_first_slot :
    (inSlot 1 0xFFF08193).map (fun t => (t.pc, t.ifStage.cur.instr, t.phase)) = some (0x10000004, 0xFFF08193, .decode) ∧
    (inSlot 2 0xFFF08193).map (fun t => (t.deStage.cur.opcode, t.deStage.cur.rd, t.deStage.cur.imm)) =
      some (0x13, 3, 0xFFF) ∧
    (inSlot 3 0xFFF08193).map (fun t => t.exStage.cur) = some { aluResult := 0xFFFFFFFF, rd := 3, isAluOp := true } ∧
    (inSlot 4 0xFFF08193).map (fun t => (t.maStage.cur.rd, t.readReg 3)) = some (3, 0) ∧
    (inSlot 5 0xFFF08193).map (fun t => (t.readReg 3, t.phase)) = some (0xFFFFFFFF, .fetch) := by decide
/-- P-1 with `WB_PHASE = MemoryAccess`: x3 is not written in the instruction's own slot, but by the slot after it. -/
theorem test_late_write_back :
    (stateOf (step ((lateMachine [(1, 4)]).withFetchWord 32 0xFFF08193))).map (fun t => t.readReg 3) = some 0 ∧
    (stateOf (runSteps 2 ((lateMachine [(1, 4)]).withFetchWord 32 0xFFF08193))).map (fun t => t.readReg 3) = some 3 := by
  decide
/-- P-4: the fetch off the map faults, changes nothing but the status, and faults again. -/
theorem test_fault :
    faultOf (step offTheMap) = some (.unmappedAddress 0x10001000 .read) ∧
    (hostCycle offTheMap).machine = { offTheMap with status := .faulted (.unmappedAddress 0x10001000 .read) } ∧
    (hostCycle (hostCycle offTheMap).machine).raised = some (.unmappedAddress 0x10001000 .read) := by decide

/-! ## The bus, the devices and the register file -/

/-- V-9. -/
theorem test_bus_read : [0x10000FFC, 0x10001000, 0x0FFFFFFC, 0x10000002, 0x00000003].map (busRead State.reset) =
    [.ok 0, .error (.unmappedAddress 0x10001000 .read), .error (.unmappedAddress 0x0FFFFFFC .read),
      .error (.unalignedAccess 0x10000002 .read), .error (.unalignedAccess 0x00000003 .read)] := by decide
/-- V-9. -/
theorem test_bus_write :
    (match busWrite State.reset 0x20000FFC 1 with
      | .ok t => some (busRead t 0x20000FFC, busRead t 0x20000FF8)
      | .error _ => none) = some (.ok 1, .ok 0) ∧
    busWrite State.reset 0x10000FFC 1 = .error (.readOnly 0x10000FFC) ∧
    busWrite State.reset 0x10000002 1 = .error (.unalignedAccess 0x10000002 .write) ∧
    busWrite State.reset 0x20001000 1 = .error (.unmappedAddress 0x20001000 .write) := by decide
/-- V-10. -/
theorem test_devices :
    romRead State.reset 0x20000000 = .error (.outOfRange 0x20000000 .read) ∧
    ramRead State.reset 0x10000000 = .error (.outOfRange 0x10000000 .read) ∧
    romRead State.reset 0x10000002 = .error (.unalignedAccess 0x10000002 .read) := by decide
/-- V-10, on a ROM of two words: the load replaces the entire image, and one word too many is refused. -/
theorem test_rom_load :
    (match romLoad (State.initial tinyConfig) [0xA, 0xB] with
      | .ok t => (match romLoad t [0xD] with
        | .ok u => some (busRead u 0x10000000, busRead u 0x10000004)
        | .error _ => none)
      | .error _ => none) = some (.ok 0xD, .ok 0) ∧
    romLoad (State.initial tinyConfig) [1, 2, 3] = .error (.imageTooLarge 3 2) := by decide
/-- V-8. -/
theorem test_register_ports :
    (State.reset.writeReg 0 0xFFFFFFFF).readReg 0 = 0 ∧ (State.reset.writeReg 31 1).readReg 31 = 1 ∧
    ((State.reset.writeReg 7 0x11111111).writeReg 8 0x22222222).readReg 7 = 0x11111111 := by decide

/-- R19: x1, which the assembler calls ra, and x2, its sp, change places; ADD x1, x1, x2 becomes ADD x2, x2, x1. -/
def swap12 (i : RegIx) : RegIx := if i = 1 then 2 else if i = 2 then 1 else i

/-- The premises of no_register_but_zero_is_special are met by that exchange, and its instruction is renamed so. -/
theorem test_registers_renamed :
    swap12 0 = 0 ∧ Function.Injective swap12 ∧
    (machine .bit30 [(1, 5), (2, 9)]).Renamed swap12 (machine .bit30 [(2, 5), (1, 9)]) ∧
    (Instr.add 1 1 2 0).renameRegs swap12 = .add 2 2 1 0 :=
  ⟨rfl, by unfold Function.Injective; decide, ⟨rfl, rfl, by decide, by unfold ExecRecord.Renamed; decide, rfl⟩, rfl⟩

/-! ## The host (R166 to R168) -/

/-- A session of the machine of the two-word ROM. -/
def session (run : RunProgress) : Session := { machine := State.initial tinyConfig, run := run }

/-- The session a move leaves, if it is allowed. -/
def leaves (m : HostMove) (h : Session) : Option Session :=
  match hostMove m h with
  | .ok r => some r.session
  | .error _ => none

/-- R166: a load or a preload in the middle of a run is no move; before it, each is. -/
theorem test_host_no_write_in_a_run :
    hostMove (.load [1]) (session .underWay) = .error .loadInRun ∧
    hostMove (.preloadReg 1 5) (session .underWay) = .error .preloadAfterFirstCycle ∧
    hostMove (.preloadRam 0x20000000 5) (session .underWay) = .error .preloadAfterFirstCycle ∧
    (leaves (.preloadReg 1 5) (session .fresh)).map (fun h => (h.machine.readReg 1, h.run)) = some (5, .fresh) ∧
    (leaves (.load [1, 2]) (session .fresh)).map (fun h => (busRead h.machine 0x10000004, h.run)) =
      some (.ok 2, .fresh) := by decide
/-- R167: after a load between runs the host has to reset before it cycles; R163: the first cycle begins a run. -/
theorem test_host_reset_after_load :
    ((leaves .stop (session .underWay)).bind (leaves (.load [7]))).map (fun h => (h.run, hostMove .cycle h)) =
      some (.reloaded, .error .cycleAfterLoad) ∧
    (((leaves (.load [7]) (session .ended)).bind (leaves (.reset { regInit := Vector.replicate 31 0, ramInit := [] }))).bind
        (leaves .cycle)).map (fun h => (h.run, h.machine.ifStage.cur.instr)) = some (.underWay, 7) := by decide

/-! ## Witnesses: for every statement with hypotheses, values that meet all of them together, clause by clause -/

/-- The states whose slot has begun but is not finished, one for each phase. -/
def openState (p : Phase) : State := { State.reset with phase := p }

/-- A machine whose MA stage holds an ALU-class record that waits for Write-Back (R109). -/
def pendingMachine : State :=
  { lateMachine [(1, 4)] with maStage := Latch.both { aluResult := 0x55, rd := 31, isAluOp := true } }

/-- The machine of the two-word ROM with an image loaded. -/
def tinyLoaded : Option State :=
  match launch tinyConfig [0xFFF08193, 0x00208233] { regInit := Vector.replicate 31 0, ramInit := [] } with
  | .ok s => some s
  | .error _ => none

/-- Launch parameters of the default machine. -/
def someParams : LaunchParams := { regInit := Vector.replicate 31 7, ramInit := [1, 2] }

theorem test_witness_DecodeInvertsEncode :
    (Instr.add 31 31 31 0x6F).wf .bit29 = true ∧ (Instr.sub 0 31 0 0x10).wf .bit29 = true ∧
    (Instr.add 31 31 31 0x5F).wf .bit30 = true ∧ (Instr.sub 0 31 0 0x20).wf .bit30 = true ∧
    (Instr.nopOther 0xFFFFFF7F).wf .bit29 = true ∧ (Instr.nopOther 0xFFFFFFFE).wf .bit30 = true := by decide

theorem test_witness_AltBitAloneTellsSubFromAdd :
    opcodeOf 0x5E2081B3 = 0b0110011#7 ∧ funct3Of 0x5E2081B3 = 0b000#3 ∧
    (0x5E2081B3#32).getLsbD AltBit.bit29.index = false ∧ (0x5E2081B3#32).getLsbD AltBit.bit30.index = true ∧
    opcodeOf 0xBE2081B3 = 0b0110011#7 ∧ funct3Of 0xBE2081B3 = 0b000#3 ∧
    (0xBE2081B3#32).getLsbD AltBit.bit29.index = true ∧ (0xBE2081B3#32).getLsbD AltBit.bit30.index = false := by decide

/-- The clauses meet at the fields 0x7FF and 0x800. -/
theorem test_witness_ImmediateIsSignExtendedInExecute :
    (0x7FF#12).toNat < 2048 ∧ ¬(0x800#12).toNat < 2048 ∧ (sext12 0x7FF).toNat = 2047 ∧
    (sext12 0x800).toNat = 2048 + 0xFFFFF000 ∧ (decodedRecord State.reset 0xFFF08193).opcode = 0b0010011#7 := by decide

theorem test_witness_AddiAddsTheSignExtendedImmediate :
    State.reset.cfg.wbPhase = .writeBack ∧ (0xFFF08193#32 &&& 0x0000707F) = 0x00000013 := by decide

theorem test_witness_AddAddsTheSourceRegisters :
    State.reset.cfg.wbPhase = .writeBack ∧ (0x5E2081B3#32 &&& 0x2000707F) = 0x00000033 ∧
    (0xBE2081B3#32 &&& 0x4000707F) = 0x00000033 := by decide

theorem test_witness_SubSubtractsTheSourceRegisters :
    State.reset.cfg.wbPhase = .writeBack ∧ (0xBE2081B3#32 &&& 0x2000707F) = 0x20000033 ∧
    (0x5E2081B3#32 &&& 0x4000707F) = 0x40000033 := by decide

theorem test_witness_UnimplementedImmediateFormWritesAFreeWord :
    State.reset.cfg.wbPhase = .writeBack ∧
    [0x00409193#32, 0x0010A193#32, 0x0010B193#32, 0x0FF0C193#32, 0x4040D193#32, 0x0FF0E193#32, 0x0FF0F193#32].map
        (fun w => w &&& 0x0000707F) =
      [0x00001013, 0x00002013, 0x00003013, 0x00004013, 0x00005013, 0x00006013, 0x00007013] := by decide

theorem test_witness_UnimplementedRegisterFormWritesAFreeWord :
    State.reset.cfg.wbPhase = .writeBack ∧
    [0x002091B3#32, 0x0020A1B3#32, 0x0020B1B3#32, 0x0020C1B3#32, 0x4020D1B3#32, 0x0020E1B3#32, 0x0020F1B3#32].map
        (fun w => w &&& 0x0000707F) =
      [0x00001033, 0x00002033, 0x00003033, 0x00004033, 0x00005033, 0x00006033, 0x00007033] := by decide

theorem test_witness_LoadStoreAndJumpWordsAreNoOps :
    State.reset.cfg.wbPhase = .writeBack ∧
    [0x0000A183#32, 0x0030A023#32, 0x00000063#32, 0x0000006F#32, 0x00008067#32].map (fun w => w &&& 0x0000007F) =
      [0x00000003, 0x00000023, 0x00000063, 0x0000006F, 0x00000067] := by decide

theorem test_witness_UpperImmediateFenceAndSystemWordsAreNoOps :
    State.reset.cfg.wbPhase = .writeBack ∧
    [0x123451B7#32, 0x00000197#32, 0x0FF0000F#32, 0x30200073#32].map (fun w => w &&& 0x0000007F) =
      [0x00000037, 0x00000017, 0x0000000F, 0x00000073] := by decide

theorem test_witness_RemainingLabelledOpcodesAreNoOps :
    State.reset.cfg.wbPhase = .writeBack ∧
    [0x80000087#32, 0x800000A7#32, 0x800000AF#32, 0x8000009B#32, 0x800000BB#32, 0x800000C3#32, 0x800000C7#32,
        0x800000CB#32, 0x800000CF#32, 0x800000D3#32].map (fun w => w &&& 0x0000007F) =
      [0x07, 0x27, 0x2F, 0x1B, 0x3B, 0x43, 0x47, 0x4B, 0x4F, 0x53] := by decide

theorem test_witness_ZeroOnesAndUnlabelledWordsAreNoOps :
    State.reset.cfg.wbPhase = .writeBack ∧
    (0x00000080#32 ≠ 0 ∧ 0x00000080#32 ≠ 0xFFFFFFFF#32 ∧ opcodeOf 0x00000080 ∉ namedOpcodes) ∧
    (0xFFFFFF7F#32 ≠ 0 ∧ 0xFFFFFF7F#32 ≠ 0xFFFFFFFF#32 ∧ opcodeOf 0xFFFFFF7F ∉ namedOpcodes) := by decide

theorem test_witness_ZeroDestinationWritesNoRegister :
    State.reset.cfg.wbPhase = .writeBack ∧ rdOf (encode (.addi 0 1 5)) = 0 ∧ rdOf (encode (.undefOp111 0 0x00041)) = 0 ∧
    rdOf (encode (.nopSystem 0)) = 0 ∧ rdOf (encode .nopZeroWord) = 0 := by decide

theorem test_witness_FrameOfEveryInstruction :
    (∃ t, exec (.addi 3 1 0xFFF) State.reset = .next t ∧ State.reset.cfg.wbPhase = .writeBack) ∧
    (∃ t, exec (.addi 3 1 0xFFF) pendingMachine = .next t ∧ pendingMachine.cfg.wbPhase = .memoryAccess) ∧
    (∃ t, exec .nopZeroWord (lateMachine []) = .next t ∧ (lateMachine []).cfg.wbPhase = .memoryAccess ∧
      (lateMachine []).maStage.cur.isAluOp = false) :=
  ⟨⟨_, rfl, rfl⟩, ⟨_, rfl, rfl⟩, ⟨_, rfl, rfl, rfl⟩⟩

theorem test_witness_LatchesHoldTheRetiredInstruction :
    (Instr.sub 5 1 2 0x30).wf State.reset.cfg.altBit = true ∧
    hasResult (decodedRecord State.reset (encode (.sub 5 1 2 0x30))) = true := by decide

theorem test_witness_StepRunsTheFetchedInstruction :
    State.reset.AtSlotStart ∧ busRead State.reset State.reset.pc = .ok 0 ∧
    offTheMap.AtSlotStart ∧ busRead offTheMap offTheMap.pc = .error (.unmappedAddress 0x10001000 .read) := by decide

theorem test_witness_StepIsTheInstructionLevelStep :
    (State.reset.withFetchWord 32 0x602082B3).AtSlotStart ∧
    (State.reset.withFetchWord 32 0x602082B3).cfg.wbPhase = .writeBack ∧
    busRead (State.reset.withFetchWord 32 0x602082B3) (State.reset.withFetchWord 32 0x602082B3).pc = .ok 0x602082B3 := by
  decide

theorem test_witness_DelayedWriteBackRetiresThePreviousInstruction :
    pendingMachine.AtSlotStart ∧ pendingMachine.cfg.wbPhase = .memoryAccess ∧
    busRead pendingMachine pendingMachine.pc = .ok 0 ∧ pendingMachine.maStage.cur.isAluOp = true ∧
    pendingMachine.maStage.cur.rd ≠ 0 := by decide

theorem test_witness_EveryInstructionCompletesUnderDelayedWriteBack :
    pendingMachine.cfg.wbPhase = .memoryAccess ∧ (lateMachine []).cfg.wbPhase = .memoryAccess := by decide

theorem test_witness_StepsAreFiveCyclesEach :
    State.reset.Settled ∧ State.reset.phase = .fetch ∧ offTheMap.Settled ∧ offTheMap.phase = .fetch := by decide

theorem test_witness_OpenSlotIsFinishedWithoutAFault :
    (openState .decode).status = .running ∧ (openState .decode).phase ≠ .fetch ∧ (openState .decode).Settled ∧
    (openState .writeBack).status = .running ∧ (openState .writeBack).phase ≠ .fetch := by decide

theorem test_witness_FetchCycleReadsTheWordAtPc :
    State.reset.AtSlotStart ∧ State.reset.Settled ∧ busRead State.reset State.reset.pc = .ok 0 ∧
    offTheMap.AtSlotStart ∧ offTheMap.Settled ∧
    busRead offTheMap offTheMap.pc = .error (.unmappedAddress 0x10001000 .read) := by decide

theorem test_witness_DecodeCycleLatchesFieldsAndOperands :
    (openState .decode).status = .running ∧ (openState .decode).phase = .decode ∧ (openState .decode).Settled := by decide

theorem test_witness_ExecuteCycleComputesTheResultRecord :
    (openState .execute).status = .running ∧ (openState .execute).phase = .execute ∧ (openState .execute).Settled := by
  decide

theorem test_witness_MemoryAccessCycleForwardsTheRecord :
    (openState .memoryAccess).status = .running ∧ (openState .memoryAccess).phase = .memoryAccess ∧
    (openState .memoryAccess).Settled := by decide

theorem test_witness_WriteBackCycleWritesTheRegister :
    (openState .writeBack).status = .running ∧ (openState .writeBack).phase ≠ .fetch ∧ (openState .writeBack).Settled ∧
    (openState .writeBack).phase = writeBackPhase (openState .writeBack).cfg ∧
    (openState .execute).phase ≠ writeBackPhase (openState .execute).cfg := by decide

theorem test_witness_EveryCycleAdvancesThePhase :
    (∃ t, cycle State.reset = .next t) ∧ (∃ t, cycle (openState .writeBack) = .next t) ∧
    (openState .decode).status = .running ∧ (openState .decode).phase ≠ .fetch :=
  ⟨⟨_, rfl⟩, ⟨_, rfl⟩, rfl, by decide⟩

theorem test_witness_EveryPairAgreesAfterACycle :
    (∃ t, cycle State.reset = .next t ∧ State.reset.phase ≠ .decode) ∧
    (∃ t, cycle (openState .decode) = .next t ∧ (openState .decode).phase ≠ .fetch) :=
  ⟨⟨_, rfl, by decide⟩, ⟨_, rfl, by decide⟩⟩

theorem test_witness_StalledStagesAreFrozen :
    State.reset.Settled ∧ (∃ t, cycle State.reset = .next t) ∧ (openState .memoryAccess).Settled ∧
    (∃ t, cycle (openState .memoryAccess) = .next t) ∧
    (openState .memoryAccess).phase ≠ writeBackPhase (openState .memoryAccess).cfg :=
  ⟨by decide, ⟨_, rfl⟩, by decide, ⟨_, rfl⟩, by decide⟩

theorem test_witness_RepeatedComputeChangesNothing :
    (∃ t, computeIF State.reset = .ok t) ∧ (openState .decode).phase ≠ .fetch ∧ State.reset.phase ≠ .decode ∧
    State.reset.phase ≠ .execute ∧ State.reset.phase ≠ .memoryAccess ∧ State.reset.phase ≠ writeBackPhase State.reset.cfg :=
  ⟨⟨_, rfl⟩, by decide⟩

theorem test_witness_FailedCycleChangesOnlyTheStatus :
    offTheMap.status = .running ∧ cycle offTheMap = .fault (.unmappedAddress 0x10001000 .read) := ⟨rfl, rfl⟩

/-- The last address of ROM and the first after it. -/
theorem test_witness_OnlyAnUnmappedFetchStopsTheCore :
    offTheMap.status = .running ∧ aligned offTheMap.pc = true ∧ offTheMap.phase = .fetch ∧
    route offTheMap.cfg offTheMap.pc = .unmapped ∧ State.reset.status = .running ∧ aligned State.reset.pc = true ∧
    route State.reset.cfg State.reset.pc ≠ .unmapped ∧ route State.reset.cfg 0x10000FFC = .rom := by decide

theorem test_witness_NoStepIsRefused :
    (offTheMap.takeFault (.unmappedAddress 0x10001000 .read)).status = .faulted (.unmappedAddress 0x10001000 .read) := rfl

/-- The first and the last Word of an image that fills the ROM. -/
theorem test_witness_BusReadRoutesByAddress :
    (State.initial tinyConfig).cfg.Admissible ∧ (State.initial tinyConfig).mem.wf = true ∧
    (match romLoad (State.initial tinyConfig) [1, 2] with | .ok _ => true | .error _ => false) = true ∧
    0 < tinyConfig.romSize / 4 ∧ 1 < tinyConfig.romSize / 4 := by decide

theorem test_witness_BusWriteReachesRamOnly :
    State.reset.cfg.Admissible ∧ State.reset.mem.wf = true ∧ (0x20000001#32).toNat % 4 ≠ 0 ∧
    route State.reset.cfg 0x10000FFC = .rom ∧ route State.reset.cfg 0x20001000 = .unmapped ∧
    route State.reset.cfg 0x20000FFC = .ram ∧ (0x20000FFC#32).toNat % 4 = 0 ∧ (0x20000FF8#32) ≠ 0x20000FFC#32 := by decide

theorem test_witness_DevicesCheckAlignmentThenTheirRange :
    State.reset.mem.wf = true ∧ (0x20000002#32).toNat % 4 ≠ 0 ∧
    ¬(State.reset.cfg.ramBase ≤ (0x20001000#32).toNat ∧
      (0x20001000#32).toNat < State.reset.cfg.ramBase + State.reset.cfg.ramSize) ∧
    (State.reset.cfg.ramBase ≤ (0x20000FFC#32).toNat ∧
      (0x20000FFC#32).toNat < State.reset.cfg.ramBase + State.reset.cfg.ramSize) := by decide

/-- An image that fills the ROM, and one of a Word more. -/
theorem test_witness_RomLoadReplacesTheImageOrFails :
    (State.initial tinyConfig).cfg.Admissible ∧ (State.initial tinyConfig).mem.wf = true ∧
    ([1, 2] : List Word).length ≤ tinyConfig.romSize / 4 ∧ tinyConfig.romSize / 4 < ([1, 2, 3] : List Word).length := by
  decide

theorem test_witness_RegisterPortsReadBackWhatIsWritten : (1#5) ≠ 0 ∧ (31#5) ≠ 0 ∧ (0#5) ≠ 31#5 ∧ (30#5) ≠ 31#5 := by
  decide

theorem test_witness_ResetLeavesTheLaunchState :
    State.reset.cfg.Admissible ∧ State.reset.mem.wf = true ∧ someParams.ramInit.length ≤ State.reset.cfg.ramSize / 4 ∧
    (offTheMap.takeFault (.unmappedAddress 0x10001000 .read)).cfg.Admissible := by decide

/-- The empty image and one that fills the ROM. -/
theorem test_witness_FirstStepRunsImageWordZero :
    tinyConfig.Admissible ∧ ([] : List Word).length ≤ tinyConfig.romSize / 4 ∧
    ([1, 2] : List Word).length ≤ tinyConfig.romSize / 4 := by decide

theorem test_witness_PlacedWordIsTheNextToRun :
    State.reset.mem.wf = true ∧ aligned State.reset.pc = true ∧ route State.reset.cfg State.reset.pc ≠ .unmapped := by
  decide

theorem test_witness_LaunchMeetsTheInvariant :
    tinyConfig.Admissible ∧ tinyLoaded.isSome = true ∧ State.reset.Inv := by decide

theorem test_witness_StepKeepsTheInvariant :
    State.reset.Inv ∧ (∃ t, step State.reset = .next t) ∧ (openState .decode).Inv ∧
    (∃ t, step (openState .decode) = .next t) :=
  ⟨by decide, ⟨_, rfl⟩, by decide, ⟨_, rfl⟩⟩

theorem test_witness_CycleCallKeepsTheInvariant :
    State.reset.Inv ∧ offTheMap.Inv ∧ (offTheMap.takeFault (.unmappedAddress 0x10001000 .read)).Inv :=
  ⟨by decide, by decide, by decide⟩

theorem test_witness_HostWritesKeepStorageInForm :
    State.reset.cfg.Admissible ∧ State.reset.StorageOk ∧ (∃ t, busWrite State.reset 0x20000FFC 1 = .ok t) ∧
    (∃ t, romLoad State.reset [1, 2] = .ok t) :=
  ⟨by decide, by decide, ⟨_, rfl⟩, ⟨_, rfl⟩⟩

theorem test_witness_NothingTheCoreDoesWritesMemory :
    (∃ t, step State.reset = .next t) ∧ (∃ t, cycle State.reset = .next t) := ⟨⟨_, rfl⟩, ⟨_, rfl⟩⟩

theorem test_witness_PcAdvancesByFourInFetchOnly :
    State.reset.Settled ∧ State.reset.AtSlotStart ∧ (∃ t, cycle State.reset = .next t) ∧
    (∃ t, step State.reset = .next t) ∧ aligned State.reset.pc = true ∧ (openState .execute).Settled ∧
    (∃ t, cycle (openState .execute) = .next t) :=
  ⟨by decide, by decide, ⟨_, rfl⟩, ⟨_, rfl⟩, by decide, by decide, ⟨_, rfl⟩⟩

theorem test_witness_RunsAreStraightLines :
    State.reset.AtSlotStart ∧ (∃ t, runSteps 0 State.reset = .next t) ∧ (∃ t, runSteps 2 State.reset = .next t) :=
  ⟨by decide, ⟨_, rfl⟩, ⟨_, rfl⟩⟩

/-- As many steps as the smallest ROM has Words. -/
theorem test_witness_RunsCompleteWhileMapped :
    (State.initial tinyConfig).AtSlotStart ∧ aligned (State.initial tinyConfig).pc = true ∧
    ∀ k, k < 2 → route tinyConfig ((State.initial tinyConfig).pc + BitVec.ofNat 32 (4 * k)) ≠ .unmapped := by decide

theorem test_witness_EveryRunEndsOffTheMap :
    State.reset.AtSlotStart ∧ aligned State.reset.pc = true ∧ aligned 0x10001000 = true ∧
    route State.reset.cfg 0x10001000 = .unmapped := by decide

theorem test_witness_AddAndSubUndoEachOther :
    State.reset.cfg.wbPhase = .writeBack ∧ (31#5) ≠ 0 ∧ (31#5) ≠ 30#5 ∧ (0x801#12) ≠ 0x800#12 ∧ (0x7FF#12) ≠ 0x800#12 := by
  decide

theorem test_witness_EveryUnimplementedAluWordWritesAFreeWord :
    State.reset.cfg.wbPhase = .writeBack ∧ opcodeOf 0x0020F1B3 &&& 0x5F = 0x13 ∧ funct3Of 0x0020F1B3 ≠ 0 ∧
    opcodeOf 0x00409193 &&& 0x5F = 0x13 ∧ funct3Of 0x00409193 ≠ 0 := by decide

theorem test_witness_EveryNonAluWordOnlyAdvancesPc :
    State.reset.AtSlotStart ∧ State.reset.Settled ∧ State.reset.cfg.wbPhase = .writeBack ∧
    busRead State.reset State.reset.pc = .ok 0 ∧ opcodeOf 0 &&& 0x5F ≠ 0x13 := by decide

/-- A session in each place of its run, loads and RAM writes that succeed and fail, and a Faulted machine. -/
theorem test_witness_HostActsOnlyWhenAllowed :
    ((session .fresh).run ≠ .underWay ∧ (session .ended).run ≠ .underWay ∧ (session .underWay).run ≠ .fresh) ∧
    (∃ t, romLoad (session .fresh).machine [1, 2] = .ok t) ∧
    romLoad (session .ended).machine [1, 2, 3] = .error (.imageTooLarge 3 2) ∧
    (∃ t, busWrite (session .fresh).machine 0x20000000 1 = .ok t) ∧
    busWrite (session .fresh).machine 0x20000004 1 = .error (.unmappedAddress 0x20000004 .write) ∧
    ((session .reloaded).machine.status = .running ∧ (session .reloaded).run = .reloaded) ∧
    (∃ r, hostMove .cycle (session .underWay) = .ok r) ∧
    tinyConfig.Admissible ∧ (session .fresh).Ok ∧ (∃ r, hostMove .stop (session .fresh) = .ok r) :=
  ⟨by decide, ⟨_, rfl⟩, by decide, ⟨_, rfl⟩, by decide, by decide, ⟨_, rfl⟩, by decide, by decide, ⟨_, rfl⟩⟩

end Sys2Proof.Tests
end

section
/-! PROOFS. The register file's ports and the program counter (spec/10_state.md R16, R17, R21). -/

namespace Sys2Proof.Machine

/-! ## The register file's ports (R16, R17) -/

/-- A write to x0 is discarded (R17). -/
@[simp] theorem writeReg_zero (s : State) (v : Word) : s.writeReg 0 v = s := if_pos rfl

/-- A write changes the register file and nothing else. -/
theorem writeReg_eq (s : State) (i : RegIx) (v : Word) : s.writeReg i v = { s with regs := (s.writeReg i v).regs } := by
  unfold State.writeReg
  split <;> rfl

theorem readReg_writeReg_same (s : State) {i : RegIx} (hi : i ≠ 0) (v : Word) : (s.writeReg i v).readReg i = v := by
  rw [readReg_writeReg, if_pos ⟨rfl, hi⟩]

theorem readReg_writeReg_other (s : State) {i j : RegIx} (hj : j ≠ i) (v : Word) :
    (s.writeReg i v).readReg j = s.readReg j := by
  rw [readReg_writeReg, if_neg fun h => hj h.1]

/-- Settles O41, from the read-after-write law of the two ports. -/
theorem registerPortsReadBackWhatIsWritten : Obligations.RegisterPortsReadBackWhatIsWritten := by
  unfold Obligations.RegisterPortsReadBackWhatIsWritten
  intro s i j v
  exact ⟨readReg_zero s, writeReg_zero s v, fun hi => readReg_writeReg_same s hi v,
    fun hj => readReg_writeReg_other s hj v, writeReg_eq s i v⟩

/-! ## The program counter (R20, R21) -/

/-- Four bytes on, an address is aligned as it was, also where it wraps at 2^32. -/
@[simp] theorem aligned_add_four (a : Word) : aligned (a + 4) = aligned a := by
  have h : (a + 4).toNat % 4 = a.toNat % 4 := by
    rw [BitVec.toNat_add]
    simp only [BitVec.reduceToNat]
    omega
  rw [aligned, aligned, h]

/-- The latch point makes IF's next program counter the current one (R92). -/
@[simp] theorem pc_advancePhase_latchAll (s : State) : (advancePhase (latchAll s)).pc = s.ifStage.nxt.pc := rfl

/-- No stage after IF assigns the program counter, current or next (R21). -/
@[simp] theorem computeRest_ifStage (s : State) : (computeRest s).ifStage = s.ifStage := by simp [computeRest]

/-- A completed Fetch cycle moves the program counter on by 4 (R91, R92). -/
theorem cycle_pc_fetch {s t : State} (hp : s.phase = .fetch) (h : cycle s = .next t) : t.pc = s.pc + 4 := by
  rcases cycle_cases s with ⟨f, _, h'⟩ | ⟨f, _, _, _, h'⟩ | ⟨w, _, _, _, h'⟩ | ⟨_, hn, _⟩
  · rw [h] at h'; cases h'
  · rw [h] at h'; cases h'
  · rw [h] at h'; cases h'
    simp
  · exact absurd hp hn

/-- A completed cycle of another phase latches IF's own next value, which is the current one (R21, R104). -/
theorem cycle_pc_not_fetch {s t : State} (hif : s.ifStage.nxt = s.ifStage.cur) (hp : s.phase ≠ .fetch)
    (h : cycle s = .next t) : t.pc = s.pc := by
  obtain ⟨-, u, rfl, -, -, -, -, hu, -⟩ := cycle_next h
  rw [pc_advancePhase_latchAll, hu hp, hif, State.pc]

/-- A completed step from a slot boundary is one whole slot, of some word (R108). -/
theorem step_eq_afterSlot {s t : State} (hs : s.AtSlotStart) (h : step s = .next t) :
    ∃ w r n, t = s.afterSlot w r n := by
  obtain ⟨-, hp⟩ := hs
  rcases step_cases s with ⟨f, _, h'⟩ | ⟨f, _, _, h'⟩ | ⟨w, _, _, h'⟩ | ⟨_, hn, _⟩
  · rw [h] at h'; cases h'
  · rw [h] at h'; cases h'
  · obtain ⟨r, n, he⟩ := exec_eq_afterSlot (decode s.cfg.altBit w) s
    rw [h, he] at h'; cases h'
    exact ⟨_, r, n, rfl⟩
  · exact absurd hp hn

/-- Settles O53: of the ways a cycle can complete only Fetch assigns IF's next program counter, and every slot ends with
it moved on by 4. -/
theorem pcAdvancesByFourInFetchOnly : Obligations.PcAdvancesByFourInFetchOnly := by
  unfold Obligations.PcAdvancesByFourInFetchOnly
  constructor
  · intro s t ⟨hif, _⟩ h
    split
    · exact cycle_pc_fetch ‹_› h
    · exact cycle_pc_not_fetch hif ‹_› h
  · intro s t hs h
    obtain ⟨w, r, n, rfl⟩ := step_eq_afterSlot hs h
    rw [afterSlot_pc, aligned_add_four]
    exact ⟨rfl, BitVec.toNat_add _ _, id⟩

end Sys2Proof.Machine
end

section
/-! PROOFS. The memory system (spec/20_memory.md R42 to R50): the two devices, the bus, and the ROM load. -/

namespace Sys2Proof.Machine

/-! ## The checks on an address, in numbers (R41, R53) -/

theorem aligned_iff {a : Word} : aligned a = true ↔ a.toNat % 4 = 0 := beq_iff_eq

theorem not_aligned_iff {a : Word} : aligned a = false ↔ a.toNat % 4 ≠ 0 := beq_eq_false_iff_ne

theorem inRom_iff {c : Config} {n : Nat} : inRom c n = true ↔ c.romBase ≤ n ∧ n < c.romBase + c.romSize := by
  rw [inRom, Bool.and_eq_true, decide_eq_true_iff, decide_eq_true_iff]

theorem inRam_iff {c : Config} {n : Nat} : inRam c n = true ↔ c.ramBase ≤ n ∧ n < c.ramBase + c.ramSize := by
  rw [inRam, Bool.and_eq_true, decide_eq_true_iff, decide_eq_true_iff]

/-- An address routed to RAM lies in the RAM range (R47). -/
theorem inRam_of_route_ram {c : Config} {a : Word} (h : route c a = .ram) : inRam c a.toNat = true := by
  unfold route at h
  split at h
  · cases h
  · split at h
    · assumption
    · cases h

/-! ## Aligned Words do not overlap (R50, R54) -/

/-- A Word write leaves the Word at every other aligned address as it was. -/
theorem wordAt_setWord_of_aligned_ne {m : Memory} {a b : Word} (v : Word) (hm : m.wf = true) (ha : a.toNat % 4 = 0)
    (hb : b.toNat % 4 = 0) (hne : b ≠ a) : (m.setWord a.toNat v).wordAt b.toNat = m.wordAt b.toNat := by
  have hn : b.toNat ≠ a.toNat := fun h => hne (BitVec.eq_of_toNat_eq h)
  exact wordAt_setWord_other v hm (by omega)

/-! ## The devices (R44 to R46) -/

theorem romRead_eq (s : State) (a : Word) :
    romRead s a = if a.toNat % 4 ≠ 0 then .error (.unalignedAccess a .read)
      else if s.cfg.romBase ≤ a.toNat ∧ a.toNat < s.cfg.romBase + s.cfg.romSize then .ok (s.mem.wordAt a.toNat)
      else .error (.outOfRange a .read) := by
  simp only [romRead, Bool.not_eq_true', not_aligned_iff, ← inRom_iff]
  cases inRom s.cfg a.toNat <;> rfl

theorem ramRead_eq (s : State) (a : Word) :
    ramRead s a = if a.toNat % 4 ≠ 0 then .error (.unalignedAccess a .read)
      else if s.cfg.ramBase ≤ a.toNat ∧ a.toNat < s.cfg.ramBase + s.cfg.ramSize then .ok (s.mem.wordAt a.toNat)
      else .error (.outOfRange a .read) := by
  simp only [ramRead, Bool.not_eq_true', not_aligned_iff, ← inRam_iff]
  cases inRam s.cfg a.toNat <;> rfl

theorem ramWrite_eq (s : State) (a v : Word) :
    ramWrite s a v = if a.toNat % 4 ≠ 0 then .error (.unalignedAccess a .write)
      else if s.cfg.ramBase ≤ a.toNat ∧ a.toNat < s.cfg.ramBase + s.cfg.ramSize then
        .ok { s with mem := s.mem.setWord a.toNat v }
      else .error (.outOfRange a .write) := by
  simp only [ramWrite, Bool.not_eq_true', not_aligned_iff, ← inRam_iff]
  cases inRam s.cfg a.toNat <;> rfl

/-- Settles O39, from the equation of each device and the read-after-write laws of storage. -/
theorem devicesCheckAlignmentThenTheirRange : Obligations.DevicesCheckAlignmentThenTheirRange := by
  unfold Obligations.DevicesCheckAlignmentThenTheirRange
  intro s a v hm
  refine ⟨romRead_eq s a, ramRead_eq s a, fun ha => ?_, fun ha hr => ?_, fun ha hr => ?_⟩
  · rw [ramWrite_eq, if_pos ha]
  · rw [ramWrite_eq, if_neg (not_not_intro ha), if_neg hr]
  · refine ⟨{ s with mem := s.mem.setWord a.toNat v }, ?_, rfl, ?_, fun b hb hne => ?_⟩
    · rw [ramWrite_eq, if_neg (not_not_intro ha), if_pos hr]
    · rw [ramRead_eq, if_neg (not_not_intro ha), if_pos hr, wordAt_setWord_same a.toNat v hm]
    · exact wordAt_setWord_of_aligned_ne v hm ha hb hne

/-! ## The bus (R47 to R50) -/

theorem busRead_eq (s : State) (a : Word) :
    busRead s a = if a.toNat % 4 ≠ 0 then .error (.unalignedAccess a .read)
      else if s.cfg.romBase ≤ a.toNat ∧ a.toNat < s.cfg.romBase + s.cfg.romSize then .ok (s.mem.wordAt a.toNat)
      else if s.cfg.ramBase ≤ a.toNat ∧ a.toNat < s.cfg.ramBase + s.cfg.ramSize then .ok (s.mem.wordAt a.toNat)
      else .error (.unmappedAddress a .read) := by
  simp only [← not_aligned_iff, ← inRom_iff, ← inRam_iff]
  split
  · exact busRead_unaligned ‹_›
  · have ha : aligned a = true := Bool.of_not_eq_false ‹_›
    split
    · exact busRead_mapped ha (route_ne_unmapped.mpr (.inl ‹_›))
    · split
      · exact busRead_mapped ha (route_ne_unmapped.mpr (.inr ‹_›))
      · exact busRead_unmapped ha (not_not.mp fun h => (route_ne_unmapped.mp h).elim ‹_› ‹_›)

/-- A bus read depends on storage only through the Word at its own address, and on that only when it is aligned. -/
theorem busRead_congr_word {s t : State} {b : Word} (hc : t.cfg = s.cfg)
    (hw : b.toNat % 4 = 0 → t.mem.wordAt b.toNat = s.mem.wordAt b.toNat) : busRead t b = busRead s b := by
  by_cases hb : b.toNat % 4 = 0
  · rw [busRead_eq, busRead_eq, hc, hw hb]
  · rw [busRead_eq, busRead_eq, if_pos hb, if_pos hb]

theorem busWrite_unaligned {s : State} {a : Word} (v : Word) (ha : aligned a = false) :
    busWrite s a v = .error (.unalignedAccess a .write) := by
  rw [busWrite, ha]; rfl

theorem busWrite_rom {s : State} {a : Word} (v : Word) (ha : aligned a = true) (hr : route s.cfg a = .rom) :
    busWrite s a v = .error (.readOnly a) := by
  rw [busWrite, ha, hr]; rfl

theorem busWrite_unmapped {s : State} {a : Word} (v : Word) (ha : aligned a = true) (hr : route s.cfg a = .unmapped) :
    busWrite s a v = .error (.unmappedAddress a .write) := by
  rw [busWrite, ha, hr]; rfl

theorem busWrite_ram {s : State} {a : Word} (v : Word) (ha : aligned a = true) (hr : route s.cfg a = .ram) :
    busWrite s a v = .ok { s with mem := s.mem.setWord a.toNat v } := by
  simp [busWrite, ramWrite, ha, hr, inRam_of_route_ram hr]

/-- Settles O38: one case per owner of the address; in RAM, the read-after-write laws of storage through the bus. -/
theorem busWriteReachesRamOnly : Obligations.BusWriteReachesRamOnly := by
  unfold Obligations.BusWriteReachesRamOnly
  intro s a v _ hm
  refine ⟨fun ha => busWrite_unaligned v (not_aligned_iff.mpr ha), fun ha => busWrite_rom v (aligned_iff.mpr ha),
    fun ha => busWrite_unmapped v (aligned_iff.mpr ha), fun ha hr => ?_⟩
  refine ⟨{ s with mem := s.mem.setWord a.toNat v }, busWrite_ram v (aligned_iff.mpr ha) hr, rfl,
    wf_setWord a.toNat v hm, ?_, fun b hne => ?_⟩
  · rw [busRead_mapped (aligned_iff.mpr ha) (by simp [hr]), wordAt_setWord_same a.toNat v hm]
  · exact busRead_congr_word rfl fun hb => wordAt_setWord_of_aligned_ne v hm ha hb hne

/-! ## The ROM load (R36, R42, R43) -/

/-- Where a range was cleared and an image stored from its base, each Word of the range is the image's, or zero beyond
it. -/
theorem wordAt_setWords_clear {m : Memory} {base size k : Nat} (image : List Word) (hm : m.wf = true)
    (hk : 4 * k + 4 ≤ size) :
    ((m.clear base size).setWords base image).wordAt (base + 4 * k) = image.getD k 0 := by
  rw [wordAt_setWords image (wf_clear base size hm)]
  split
  · rfl
  · rw [wordAt_clear_inside m (by omega), List.getD_eq_default _ _ (Nat.le_of_not_lt ‹_›)]

/-- Clearing a range and storing an image that fits it leaves every Word outside the range as it was. -/
theorem wordAt_setWords_clear_outside {m : Memory} {base size b : Nat} {image : List Word} (hm : m.wf = true)
    (hfit : 4 * image.length ≤ size) (hb : b + 4 ≤ base ∨ base + size ≤ b) :
    ((m.clear base size).setWords base image).wordAt b = m.wordAt b := by
  rw [← wordAt_clear_outside m hb]
  rcases hb with hb | hb
  · exact wordAt_setWords_below image (wf_clear base size hm) hb
  · exact wordAt_setWords_above image (wf_clear base size hm) (by omega)

theorem romLoad_too_long {s : State} {image : List Word} (h : romCapacity s.cfg < image.length) :
    romLoad s image = .error (.imageTooLarge image.length (romCapacity s.cfg)) := if_pos h

theorem romLoad_fits {s : State} {image : List Word} (h : image.length ≤ romCapacity s.cfg) :
    romLoad s image =
      .ok { s with mem := (s.mem.clear s.cfg.romBase s.cfg.romSize).setWords s.cfg.romBase image } :=
  if_neg (Nat.not_lt.mpr h)

/-- A load that succeeds keeps the deployment, and puts the image, with zeros beyond it, in the whole ROM. -/
theorem romLoad_ok {s t : State} {image : List Word} (hm : s.mem.wf = true) (h : romLoad s image = .ok t) :
    t.cfg = s.cfg ∧ ∀ k, k < s.cfg.romSize / 4 → t.mem.wordAt (s.cfg.romBase + 4 * k) = image.getD k 0 := by
  rcases romLoad_cases s image with ⟨_, h'⟩ | ⟨_, h'⟩
  · rw [h] at h'; cases h'
  · rw [h] at h'; cases h'
    exact ⟨rfl, fun k hk => wordAt_setWords_clear image hm (by omega)⟩

/-- Settles O40, from the Words that clearing the ROM range and storing the image leave inside it and outside it. -/
theorem romLoadReplacesTheImageOrFails : Obligations.RomLoadReplacesTheImageOrFails := by
  unfold Obligations.RomLoadReplacesTheImageOrFails
  intro s image hadm hm
  obtain ⟨_, _, _, hdisjoint⟩ := hadm
  refine ⟨romLoad_too_long, fun hfit => ?_⟩
  have hload := romLoad_fits hfit
  refine ⟨_, hload, rfl, wf_setWords image _ (wf_clear _ _ hm), (romLoad_ok hm hload).2, fun k hk => ?_⟩
  exact wordAt_setWords_clear_outside hm (by omega) (by omega)

/-- The Words of the ROM have bus addresses: they do not wrap, are aligned and are routed to the ROM (R41). -/
theorem romWord_address {c : Config} (hadm : c.Admissible) {k : Nat} (hk : k < c.romSize / 4) :
    (BitVec.ofNat 32 (c.romBase + 4 * k)).toNat = c.romBase + 4 * k ∧
    aligned (BitVec.ofNat 32 (c.romBase + 4 * k)) = true ∧
    route c (BitVec.ofNat 32 (c.romBase + 4 * k)) ≠ .unmapped := by
  obtain ⟨⟨hbase, _⟩, _, ⟨htop, _⟩, _⟩ := hadm
  have hnat : (BitVec.ofNat 32 (c.romBase + 4 * k)).toNat = c.romBase + 4 * k := by
    rw [BitVec.toNat_ofNat, Nat.mod_eq_of_lt (by omega)]
  refine ⟨hnat, ?_, ?_⟩
  · rw [aligned_iff, hnat]; omega
  · rw [route_ne_unmapped, hnat, inRom_iff]; left; omega

/-- Settles O37: the read's equation, and after a load the read of a ROM Word's address. -/
theorem busReadRoutesByAddress : Obligations.BusReadRoutesByAddress := by
  unfold Obligations.BusReadRoutesByAddress
  refine ⟨busRead_eq, fun s t image hadm hm hload k hk => ?_⟩
  obtain ⟨hcfg, hrom⟩ := romLoad_ok hm hload
  obtain ⟨hnat, haligned, hmapped⟩ := romWord_address hadm hk
  rw [busRead_mapped haligned (by rwa [hcfg]), hnat, hrom k hk]

end Sys2Proof.Machine
end

section
/-! PROOFS. The encoding (spec/30_encoding.md): the decoder accepts every word (R79), and the sign-extended immediate
(R69). -/

namespace Sys2Proof

/-! ## A word of a row, from the fields the row fixes (R67) -/

theorem immediateForm_of_fields {w : Word} {f : BitVec 3} {o : BitVec 7} (hf : funct3Of w = f) (ho : opcodeOf w = o) :
    immediateForm (immOf w) (rs1Of w) f (rdOf w) o = w := by
  rw [← hf, ← ho, immediateForm_fields]

theorem registerForm_of_fields {w : Word} {f : BitVec 3} {o : BitVec 7} (hf : funct3Of w = f) (ho : opcodeOf w = o) :
    registerForm (funct7Of w) (rs2Of w) (rs1Of w) f (rdOf w) o = w := by
  rw [← hf, ← ho, registerForm_fields]

theorem unimplementedForm_of_fields {w : Word} {f : BitVec 3} {o : BitVec 7} (hf : funct3Of w = f)
    (ho : opcodeOf w = o) : unimplementedForm (upper17Of w) f (rdOf w) o = w := by
  rw [← hf, ← ho, unimplementedForm_fields]

theorem opcodeForm_of_opcode {w : Word} {o : BitVec 7} (ho : opcodeOf w = o) : opcodeForm (upper25Of w) o = w := by
  rw [← ho, opcodeForm_fields]

/-! ## The decoder is total (R79) -/

/-- The instruction is well-formed and its word is `w`. -/
def Instr.StandsFor (alt : AltBit) (w : Word) (i : Instr) : Prop := i.wf alt = true ∧ encode i = w

theorem decodeImmediateForm_standsFor (alt : AltBit) {w : Word} (ho : opcodeOf w = 0x13#7) :
    (decodeImmediateForm w).StandsFor alt w := by
  unfold decodeImmediateForm
  split
  case h_1 hf => exact ⟨rfl, immediateForm_of_fields hf ho⟩
  all_goals exact ⟨rfl, unimplementedForm_of_fields ‹funct3Of w = _› ho⟩

/-- Where `funct3` is 0 the alternate bit itself chooses the row for which the word is well-formed (R75). -/
theorem decodeRegisterForm_standsFor (alt : AltBit) {w : Word} (ho : opcodeOf w = 0x33#7) :
    (decodeRegisterForm alt w).StandsFor alt w := by
  unfold decodeRegisterForm
  split
  case h_1 hf =>
    have hword := registerForm_of_fields hf ho
    split
    case isTrue hset => exact ⟨hset, hword⟩
    case isFalse hclear => exact ⟨by simpa [Instr.wf] using hclear, hword⟩
  all_goals exact ⟨rfl, unimplementedForm_of_fields ‹funct3Of w = _› ho⟩

/-- NOP.OTHER's words are those of no other row. -/
theorem nopOther_standsFor (alt : AltBit) {w : Word} (hz : w ≠ 0) (hones : w ≠ 0xFFFFFFFF#32)
    (hn : opcodeOf w ∉ namedOpcodes) : (Instr.nopOther w).StandsFor alt w := by
  refine ⟨?_, rfl⟩
  simp only [Instr.wf, Bool.and_eq_true, decide_eq_true_iff, Bool.not_eq_true', List.contains_eq_mem,
    decide_eq_false_iff_not]
  exact ⟨⟨hz, hones⟩, hn⟩

/-- The named opcodes have a pattern each, so the last one's opcode is none of them. -/
theorem decodeOpcode_standsFor (alt : AltBit) {w : Word} {o : BitVec 7} (ho : opcodeOf w = o) (hz : w ≠ 0)
    (hones : w ≠ 0xFFFFFFFF#32) : (decodeOpcode alt w o).StandsFor alt w := by
  unfold decodeOpcode
  split
  case h_1 => exact decodeImmediateForm_standsFor alt ho
  case h_2 => exact decodeRegisterForm_standsFor alt ho
  case h_22 =>
    have hn : o ∉ namedOpcodes := by simp_all [namedOpcodes]
    exact nopOther_standsFor alt hz hones (ho ▸ hn)
  all_goals exact ⟨rfl, opcodeForm_of_opcode ho⟩

theorem decode_standsFor (alt : AltBit) (w : Word) : (decode alt w).StandsFor alt w := by
  unfold decode
  split
  case isTrue hz => exact ⟨rfl, hz.symm⟩
  case isFalse hz =>
    split
    case isTrue hones => exact ⟨rfl, hones.symm⟩
    case isFalse hones => exact decodeOpcode_standsFor alt rfl hz hones

end Sys2Proof

namespace Sys2Proof.Machine

/-- Every instruction's meaning is a slot, and a slot completes (R108). -/
theorem exec_completes (i : Instr) (s : State) : ∃ t, exec i s = .next t := by
  obtain ⟨r, n, h⟩ := exec_eq_afterSlot i s
  exact ⟨_, h⟩

/-- Settles O2, from the row the decoder chooses for each word and the slot that every instruction is. -/
theorem everyWordIsAcceptedAndExecutes : Obligations.EveryWordIsAcceptedAndExecutes := by
  unfold Obligations.EveryWordIsAcceptedAndExecutes
  exact ⟨decode_standsFor, exec_completes⟩

/-! ## The immediate (R69) -/

/-- The field's bit 11, its sign, adds the twenty ones above it. -/
theorem toNat_sext12 (v : BitVec 12) :
    (sext12 v).toNat = if v.toNat < 2048 then v.toNat else v.toNat + 0xFFFFF000 := by
  have hlt := v.isLt
  have hwidth : (v.setWidth 32).toNat = v.toNat := by rw [BitVec.toNat_setWidth, Nat.mod_eq_of_lt (by omega)]
  rw [sext12, BitVec.toNat_signExtend, BitVec.msb_eq_decide, hwidth]
  by_cases h : v.toNat < 2048
  · simp [h, Nat.not_le.mpr h]
  · simp [h, Nat.le_of_not_lt h]

theorem toInt_sext12 (v : BitVec 12) : (sext12 v).toInt = v.toInt :=
  BitVec.toInt_signExtend_of_le (by decide)

/-- The ALU's second operand is the extended field where opcode bit 5 is clear (R71, R96). -/
theorem aluResult_of_not_registerForm (alt : AltBit) {d : DecodedRecord} (h : isRegisterForm d.opcode = false) :
    aluResult alt d = d.rs1v + sext12 d.imm := by
  rw [aluResult, h]; rfl

/-- Settles O6, from the extension's two values and the ALU's immediate form. -/
theorem immediateIsSignExtendedInExecute : Obligations.ImmediateIsSignExtendedInExecute := by
  unfold Obligations.ImmediateIsSignExtendedInExecute
  refine ⟨fun v => ⟨toNat_sext12 v, toInt_sext12 v⟩, fun s w => rfl, fun alt d hd => ?_⟩
  exact aluResult_of_not_registerForm alt (by rw [hd]; rfl)

end Sys2Proof.Machine
end

section
/-! PROOFS. The five stages and the cycle (spec/40_pipeline_stages.md R85 to R104): what each `compute()` does in its phase
and outside it, and the cycle each phase makes of it. -/

namespace Sys2Proof.Machine

/-! ## One stage's `compute()`, in its phase and stalled (R87, R103) -/

section
variable {s : State}

theorem computeIF_stalled (hp : s.phase ≠ .fetch) : computeIF s = .ok s := if_neg hp

theorem computeIF_error {f : Fault} (hp : s.phase = .fetch) (hb : busRead s s.pc = .error f) :
    computeIF s = .error f := by
  rw [computeIF, if_pos hp, hb]

theorem computeIF_ok {w : Word} (hp : s.phase = .fetch) (hb : busRead s s.pc = .ok w) :
    computeIF s = .ok { s with ifStage := { s.ifStage with nxt := { pc := s.pc + 4, instr := w } } } := by
  rw [computeIF, if_pos hp, hb]

theorem computeDE_stalled (hp : s.phase ≠ .decode) : computeDE s = s := if_neg hp

theorem computeDE_active (hp : s.phase = .decode) :
    computeDE s = { s with deStage := { s.deStage with nxt := decodedRecord s s.ifStage.cur.instr } } := if_pos hp

/-- The record an Execute cycle latches, with or without a result the spec gives (R95 to R97). -/
def executedRecord (s : State) : ExecRecord :=
  { aluResult := if hasResult s.deStage.cur then aluResult s.cfg.altBit s.deStage.cur else Config.freeWord s.draws.cur
    rd := s.deStage.cur.rd
    isAluOp := isAluClass s.deStage.cur.opcode }

theorem computeEX_stalled (hp : s.phase ≠ .execute) : computeEX s = s := if_neg hp

/-- The draw number moves on only where a free value was taken (R97). -/
theorem computeEX_active (hp : s.phase = .execute) :
    computeEX s = { s with
      exStage := { s.exStage with nxt := executedRecord s }
      draws := { s.draws with nxt := if hasResult s.deStage.cur then s.draws.nxt else s.draws.cur + 1 } } := by
  unfold computeEX executedRecord
  by_cases hr : hasResult s.deStage.cur = true <;> simp [hp, hr]

theorem computeMA_stalled (hp : s.phase ≠ .memoryAccess) : computeMA s = s := if_neg hp

theorem computeMA_active (hp : s.phase = .memoryAccess) :
    computeMA s = { s with maStage := { s.maStage with nxt := s.exStage.cur } } := if_pos hp

theorem computeWB_stalled (hp : s.phase ≠ writeBackPhase s.cfg) : computeWB s = s := if_neg hp

theorem computeWB_active (hp : s.phase = writeBackPhase s.cfg) : computeWB s = s.commit s.maStage.cur := if_pos hp

end

/-! ## A second `compute()` (R103)

Each stage's `compute()` reads none of the data it assigns, so in its phase it assigns the same values again. -/

theorem computeIF_computeIF {s t : State} (h : computeIF s = .ok t) : computeIF t = .ok t := by
  by_cases hp : s.phase = .fetch
  · cases hb : busRead s s.pc with
    | error f => rw [computeIF_error hp hb] at h; cases h
    | ok w =>
      rw [computeIF_ok hp hb] at h; cases h
      exact computeIF_ok hp ((busRead_congr rfl rfl s.pc).trans hb)
  · rw [computeIF_stalled hp] at h; cases h
    exact computeIF_stalled hp

theorem computeDE_computeDE (s : State) : computeDE (computeDE s) = computeDE s := by
  by_cases hp : s.phase = .decode
  · rw [computeDE_active hp]
    exact computeDE_active hp
  · rw [computeDE_stalled hp, computeDE_stalled hp]

theorem computeEX_computeEX (s : State) : computeEX (computeEX s) = computeEX s := by
  by_cases hp : s.phase = .execute
  · have hagain := computeEX_active (s := computeEX s) (by simpa using hp)
    rw [computeEX_active hp] at hagain ⊢
    rw [hagain]
    cases hr : hasResult s.deStage.cur <;> simp [hr, executedRecord]
  · rw [computeEX_stalled hp, computeEX_stalled hp]

theorem computeMA_computeMA (s : State) : computeMA (computeMA s) = computeMA s := by
  by_cases hp : s.phase = .memoryAccess
  · rw [computeMA_active hp]
    exact computeMA_active hp
  · rw [computeMA_stalled hp, computeMA_stalled hp]

theorem writeReg_of_ne_zero {i : RegIx} (hi : i ≠ 0) (s : State) (v : Word) :
    s.writeReg i v = { s with regs := s.regs.set (cellOf i) v } := if_neg hi

theorem writeReg_writeReg (s : State) (i : RegIx) (v : Word) : (s.writeReg i v).writeReg i v = s.writeReg i v := by
  by_cases hi : i = 0
  · rw [hi, writeReg_zero, writeReg_zero]
  · rw [writeReg_of_ne_zero hi, writeReg_of_ne_zero hi, Vector.set_set]

theorem commit_commit (s : State) (r : ExecRecord) : (s.commit r).commit r = s.commit r := by
  unfold State.commit
  split
  · exact writeReg_writeReg s r.rd r.aluResult
  · rfl

theorem computeWB_computeWB (s : State) : computeWB (computeWB s) = computeWB s := by
  by_cases hp : s.phase = writeBackPhase s.cfg
  · rw [computeWB_active hp, computeWB_active (by simpa using hp), commit_maStage, commit_commit]
  · rw [computeWB_stalled hp, computeWB_stalled hp]

/-- Settles O33: a stalled stage does nothing, and an active one assigns again what it assigned. -/
theorem repeatedComputeChangesNothing : Obligations.RepeatedComputeChangesNothing := by
  unfold Obligations.RepeatedComputeChangesNothing
  intro s
  exact ⟨⟨computeDE_computeDE s, computeEX_computeEX s, computeMA_computeMA s, computeWB_computeWB s,
      fun _ => computeIF_computeIF⟩,
    computeIF_stalled, computeDE_stalled, computeEX_stalled, computeMA_stalled, computeWB_stalled⟩

/-! ## The latch point of a settled state (R86, R105) -/

/-- Where every pair agrees the latch point changes nothing; so of a state with one pair renewed it changes that pair. -/
theorem latchAll_of_settled {s : State} (h : s.Settled) : latchAll s = s := by
  obtain ⟨hif, hde, hex, hma, hdraws⟩ := h
  have hpairs : latchAll s = { s with
      ifStage := s.ifStage.advance, deStage := s.deStage.advance, exStage := s.exStage.advance,
      maStage := s.maStage.advance, draws := s.draws.advance } := rfl
  rw [hpairs, Latch.advance_of_agree hif, Latch.advance_of_agree hde, Latch.advance_of_agree hex,
    Latch.advance_of_agree hma, Latch.advance_of_agree hdraws]

/-- Settles O32: the `compute()` calls leave a stalled stage's pair alone, and the latch point of a pair that agrees
changes nothing. -/
theorem stalledStagesAreFrozen : Obligations.StalledStagesAreFrozen := by
  unfold Obligations.StalledStagesAreFrozen
  intro s t ⟨hif, hde, hex, hma, _⟩ h
  obtain ⟨-, u, rfl, -, -, -, -, uif, ude, uex, uma, uregs⟩ := cycle_next h
  simp only [advancePhase_ifStage, advancePhase_deStage, advancePhase_exStage, advancePhase_maStage, advancePhase_regs,
    latchAll_ifStage, latchAll_deStage, latchAll_exStage, latchAll_maStage, latchAll_regs]
  refine ⟨fun hp => ?_, fun hp => ?_, fun hp => ?_, fun hp => ?_, uregs⟩
  · rw [uif hp, Latch.advance_of_agree hif]
  · rw [ude hp, Latch.advance_of_agree hde]
  · rw [(uex hp).1, Latch.advance_of_agree hex]
  · rw [uma hp, Latch.advance_of_agree hma]

/-! ## Fetch (R91, R92) -/

/-- A Running machine's cycle after IF's `compute()` (R88, R107). -/
theorem cycle_of_computeIF_ok {s t : State} (hs : s.status = .running) (h : computeIF s = .ok t) :
    cycle s = .next (advancePhase (latchAll (computeRest t))) := by
  rw [cycle, hs, h]

theorem cycle_of_computeIF_error {s : State} {f : Fault} (hs : s.status = .running) (h : computeIF s = .error f) :
    cycle s = .fault f := by
  rw [cycle, hs, h]

/-- A completed Fetch cycle of a settled state renews IF's pair and the phase. -/
theorem cycle_fetch_ok {s : State} {w : Word} (hs : s.AtSlotStart) (h : s.Settled) (hb : busRead s s.pc = .ok w) :
    cycle s = .next { s with ifStage := Latch.both { pc := s.pc + 4, instr := w }, phase := .decode } := by
  obtain ⟨hrun, hp⟩ := hs
  rw [cycle_of_computeIF_ok hrun (computeIF_ok hp hb), computeRest_fetch (by exact hp)]
  show Host.Outcome.next (advancePhase
    { latchAll s with ifStage := Latch.both { pc := s.pc + 4, instr := w } }) = _
  rw [latchAll_of_settled h, advancePhase, hp, Phase.succ]

/-- Settles O25: of the five stages IF alone computes, and a condition of its bus read is the cycle's. -/
theorem fetchCycleReadsTheWordAtPc : Obligations.FetchCycleReadsTheWordAtPc := by
  unfold Obligations.FetchCycleReadsTheWordAtPc
  intro s hs h
  exact ⟨fun w hb => cycle_fetch_ok hs h hb,
    fun f hb => cycle_of_computeIF_error hs.1 (computeIF_error hs.2 hb)⟩

/-! ## Decode and Execute (R93 to R98) -/

section
variable {s : State} (hs : s.status = .running) (h : s.Settled)
include hs h

/-- A Decode cycle of a settled state renews DE's pair and the phase. -/
theorem cycle_decode (hp : s.phase = .decode) :
    cycle s = .next { s with deStage := Latch.both (decodedRecord s s.ifStage.cur.instr), phase := .execute } := by
  rw [cycle_open hs (by simp [hp]), computeRest_decode hp]
  show Host.Outcome.next (advancePhase
    { latchAll s with deStage := Latch.both (decodedRecord s s.ifStage.cur.instr) }) = _
  rw [latchAll_of_settled h, advancePhase, hp, Phase.succ]

/-- An Execute cycle of a settled state renews EX's pair and the phase, and the draw counter where no result is given. -/
theorem cycle_execute (hp : s.phase = .execute) :
    cycle s = .next { s with
      exStage := Latch.both (executedRecord s)
      draws := Latch.both (if hasResult s.deStage.cur then s.draws.cur else s.draws.cur + 1)
      phase := .memoryAccess } := by
  have ⟨_, _, _, _, hdraws⟩ := h
  rw [cycle_open hs (by simp [hp]), computeRest_execute hp, computeEX_active hp, hdraws]
  show Host.Outcome.next (advancePhase
    { latchAll s with
      exStage := Latch.both (executedRecord s)
      draws := Latch.both (if hasResult s.deStage.cur then s.draws.cur else s.draws.cur + 1) }) = _
  rw [latchAll_of_settled h, advancePhase, hp, Phase.succ]

end

/-- Settles O26: the record DE latches is that of the fetched word. -/
theorem decodeCycleLatchesFieldsAndOperands : Obligations.DecodeCycleLatchesFieldsAndOperands := by
  unfold Obligations.DecodeCycleLatchesFieldsAndOperands
  exact fun s hs hp h => cycle_decode hs h hp

theorem isAluClass_eq_decide (opcode : BitVec 7) :
    isAluClass opcode = decide (opcode &&& 0b1011111#7 = 0b0010011#7) := rfl

/-- A record has a result exactly when it is ALU-class and of the ADD/SUB group (R96). -/
theorem hasResult_iff (d : DecodedRecord) :
    hasResult d = true ↔ d.opcode &&& 0b1011111#7 = 0b0010011#7 ∧ d.funct3 = 0b000#3 := by
  simp [hasResult, isAluClass]

/-- Settles O27: the record EX latches has the ALU's result where the spec gives one, and a free value elsewhere. -/
theorem executeCycleComputesTheResultRecord : Obligations.ExecuteCycleComputesTheResultRecord := by
  unfold Obligations.ExecuteCycleComputesTheResultRecord
  intro s hs hp h
  exact ⟨_, cycle_execute hs h hp, rfl, rfl, isAluClass_eq_decide _, if_congr (hasResult_iff _) rfl rfl⟩

/-! ## Memory Access and Write-Back (R99 to R101) -/

/-- WB `compute()` changes the register file and nothing else. -/
theorem computeWB_eq_regs (s : State) : computeWB s = { s with regs := (computeWB s).regs } := by
  obtain ⟨regs, h, -⟩ := computeWB_eq s
  rw [h]

theorem computeWB_regs (s : State) :
    (computeWB s).regs = if s.phase = writeBackPhase s.cfg then (s.commit s.maStage.cur).regs else s.regs :=
  apply_ite State.regs _ _ _

/-- What WB `compute()` leaves in the register file depends on the register file, the phase, the wiring and MA's current
record alone. -/
theorem computeWB_regs_congr {s t : State} (hc : t.cfg = s.cfg) (hp : t.phase = s.phase) (hr : t.regs = s.regs)
    (hm : t.maStage.cur = s.maStage.cur) : (computeWB t).regs = (computeWB s).regs := by
  rw [computeWB_regs, computeWB_regs, hc, hp, hm, hr, commit_regs_congr hr]

@[simp] theorem computeMA_maStage_cur (s : State) : (computeMA s).maStage.cur = s.maStage.cur := by
  unfold computeMA
  split <;> rfl

theorem computeRest_regs (s : State) : (computeRest s).regs = (computeWB s).regs :=
  computeWB_regs_congr (by simp) (by simp) (by simp) (by simp)

/-- A cycle's register write is WB's, from the record that MA held at its beginning (R100, R109). -/
theorem cycle_regs {s t : State} (h : cycle s = .next t) : t.regs = (computeWB s).regs := by
  rcases cycle_cases s with ⟨f, _, h'⟩ | ⟨f, _, _, _, h'⟩ | ⟨w, _, _, _, h'⟩ | ⟨_, _, h'⟩ <;> rw [h] at h' <;> cases h'
  · rw [advancePhase_regs, latchAll_regs, computeRest_regs]
    exact computeWB_regs_congr rfl rfl rfl rfl
  · rw [advancePhase_regs, latchAll_regs, computeRest_regs]

theorem memoryAccess_eq_writeBackPhase (c : Config) : .memoryAccess = writeBackPhase c ↔ c.wbPhase = .memoryAccess := by
  unfold writeBackPhase
  cases c.wbPhase <;> simp

/-- A register after WB `compute()` (R100). -/
theorem readReg_computeWB (s : State) (j : RegIx) :
    (computeWB s).readReg j =
      if s.phase = writeBackPhase s.cfg ∧ s.maStage.cur.isAluOp = true ∧ s.maStage.cur.rd ≠ 0 ∧ j = s.maStage.cur.rd
      then s.maStage.cur.aluResult else s.readReg j := by
  by_cases hp : s.phase = writeBackPhase s.cfg
  · rw [computeWB_active hp, readReg_commit]
    exact if_congr (by simp [hp, and_comm]) rfl rfl
  · rw [computeWB_stalled hp, if_neg fun h => hp h.1]

section
variable {s : State} (hs : s.status = .running) (h : s.Settled)
include hs h

/-- A Memory-Access cycle of a settled state renews MA's pair and the phase, and the registers where WB is wired to it. -/
theorem cycle_memoryAccess (hp : s.phase = .memoryAccess) :
    cycle s = .next { s with
      regs := (computeWB s).regs, maStage := Latch.both s.exStage.cur, phase := .writeBack } := by
  have hregs : (computeWB { s with maStage := { s.maStage with nxt := s.exStage.cur } }).regs = (computeWB s).regs :=
    computeWB_regs_congr rfl rfl rfl rfl
  rw [cycle_open hs (by simp [hp]), computeRest_memoryAccess hp, computeWB_eq_regs, hregs]
  show Host.Outcome.next (advancePhase
    { latchAll s with regs := (computeWB s).regs, maStage := Latch.both s.exStage.cur }) = _
  rw [latchAll_of_settled h, advancePhase, hp, Phase.succ]

/-- A Write-Back cycle of a settled state renews the phase, and the registers where WB is wired to it. -/
theorem cycle_writeBack (hp : s.phase = .writeBack) :
    cycle s = .next { s with regs := (computeWB s).regs, phase := .fetch } := by
  rw [cycle_open hs (by simp [hp]), computeRest_writeBack hp, computeWB_eq_regs]
  show Host.Outcome.next (advancePhase { latchAll s with regs := (computeWB s).regs }) = _
  rw [latchAll_of_settled h, advancePhase, hp, Phase.succ]

end

/-- Settles O28: MA's `compute()` copies EX's record, and WB's is at work in this phase with the source's wiring only. -/
theorem memoryAccessCycleForwardsTheRecord : Obligations.MemoryAccessCycleForwardsTheRecord := by
  unfold Obligations.MemoryAccessCycleForwardsTheRecord
  intro s hs hp h
  rw [cycle_memoryAccess hs h hp, computeWB_regs, hp, if_congr (memoryAccess_eq_writeBackPhase s.cfg) rfl rfl]

/-- Settles O29: whatever the phase, the register file after the cycle is the one WB's `compute()` leaves. -/
theorem writeBackCycleWritesTheRegister : Obligations.WriteBackCycleWritesTheRegister := by
  unfold Obligations.WriteBackCycleWritesTheRegister
  intro s hs hp h
  obtain ⟨t, ht⟩ : ∃ t, cycle s = .next t := ⟨_, cycle_open hs hp⟩
  refine ⟨t, ht, fun j => ?_, fun hwb => ?_⟩
  · rw [readReg_congr (cycle_regs ht), readReg_computeWB]
  · rw [cycle_writeBack hs h hwb] at ht
    cases ht
    rfl

/-! ## The phase advance (R90) -/

/-- Settles O30: no `compute()` and no `latchNext()` assigns the phase, so the advance alone does. -/
theorem everyCycleAdvancesThePhase : Obligations.EveryCycleAdvancesThePhase := by
  unfold Obligations.EveryCycleAdvancesThePhase
  refine ⟨fun s t h => ?_, fun s hs hp => ⟨_, cycle_open hs hp⟩⟩
  obtain ⟨-, u, rfl, -, -, -, hphase, -⟩ := cycle_next h
  rw [advancePhase_phase, latchAll_phase, hphase]
  cases s.phase <;> rfl

end Sys2Proof.Machine
end

section
/-! PROOFS. ADDI, ADD and SUB (spec/41_alu_add_sub.md R110 to R114): the words of each, and what its slot does. -/

namespace Sys2Proof

/-! ## Which words they are (R111 to R114) -/

theorem decode_addi (alt : AltBit) {w : Word} (ho : opcodeOf w = 0x13#7) (hf : funct3Of w = 0b000#3) :
    decode alt w = .addi (rdOf w) (rs1Of w) (immOf w) := by
  rw [decode_of_opcode ho (by decide) (by decide), decodeOpcode, decodeImmediateForm, hf]
  rfl

/-- Of `w[31:25]` the decoder looks at the alternate bit alone (R114). -/
theorem decode_add_or_sub (alt : AltBit) {w : Word} (ho : opcodeOf w = 0x33#7) (hf : funct3Of w = 0b000#3) :
    decode alt w = if alt.isSet (funct7Of w) then .sub (rdOf w) (rs1Of w) (rs2Of w) (funct7Of w)
      else .add (rdOf w) (rs1Of w) (rs2Of w) (funct7Of w) := by
  rw [decode_of_opcode ho (by decide) (by decide), decodeOpcode, decodeRegisterForm, hf]
  rfl

/-- The alternate bit of `funct7` is the word's bit `ALT_BIT` (R66, R75). -/
theorem isSet_funct7Of (alt : AltBit) (w : Word) : alt.isSet (funct7Of w) = w.getLsbD alt.index := by
  cases alt <;> simp [AltBit.isSet, AltBit.index, funct7Of]

/-- Settles O5: the word's bit `ALT_BIT` decides between the decoder's two rows, and a SUB is no ADD. -/
theorem altBitAloneTellsSubFromAdd : Obligations.AltBitAloneTellsSubFromAdd := by
  unfold Obligations.AltBitAloneTellsSubFromAdd
  intro alt w ho hf
  rw [decode_add_or_sub alt ho hf, isSet_funct7Of]
  cases w.getLsbD alt.index <;> simp

/-- ADD's mask and match, for either `ALT_BIT` (R74, R112): the forms compute to the constants of its row. -/
theorem decode_of_addRow (alt : AltBit) {w : Word}
    (h : w &&& registerForm alt.funct7Mask 0 0 7#3 0 0x7F#7 = registerForm 0 0 0 0 0 0x33#7) :
    decode alt w = .add (rdOf w) (rs1Of w) (rs2Of w) (funct7Of w) := by
  obtain ⟨ho, hf, hclear⟩ := (alternate_row alt w 0 0x33#7 false).mp h
  rw [decode_add_or_sub alt ho hf, hclear, if_neg Bool.false_ne_true]

/-- SUB's mask and match, for either `ALT_BIT` (R74, R113): the forms compute to the constants of its row. -/
theorem decode_of_subRow (alt : AltBit) {w : Word}
    (h : w &&& registerForm alt.funct7Mask 0 0 7#3 0 0x7F#7 = registerForm alt.funct7Mask 0 0 0 0 0x33#7) :
    decode alt w = .sub (rdOf w) (rs1Of w) (rs2Of w) (funct7Of w) := by
  obtain ⟨ho, hf, hset⟩ := (alternate_row alt w 0 0x33#7 true).mp h
  rw [decode_add_or_sub alt ho hf, hset, if_pos rfl]

end Sys2Proof

namespace Sys2Proof.Machine

theorem addi_rowDecodes : RowDecodes 0x0000707F 0x00000013 (fun w => .addi (rdOf w) (rs1Of w) (immOf w)) := by
  intro alt w h
  obtain ⟨ho, hf⟩ := (funct3_row w 0 0x13#7).mp h
  exact decode_addi alt ho hf

/-! ## What their slot does (R110) -/

/-- With the default `WB_PHASE` a slot with a result commits that result, and is otherwise only the advance of the
program counter. -/
theorem writesResult_of_slotWithResult {i : Instr} {rd : RegIx} {v : Word} {s : State}
    (hwb : s.cfg.wbPhase = .writeBack) (h : exec i s = slotWithResult i rd v s) : WritesResult i rd v s := by
  refine ⟨_, h, fun j => ?_, afterSlot_pc _ _ _ _, surroundings_afterSlot _ _ _ _, rfl⟩
  rw [readReg_afterSlot, retiring_default hwb, readReg_commit]
  exact if_congr (and_iff_right rfl) rfl rfl

/-- Settles O7: ADDI's words by opcode and `funct3`, its effect that of a slot with a result. -/
theorem addiAddsTheSignExtendedImmediate : Obligations.AddiAddsTheSignExtendedImmediate := by
  unfold Obligations.AddiAddsTheSignExtendedImmediate
  exact ⟨addi_rowDecodes, fun _ _ _ _ hwb => writesResult_of_slotWithResult hwb rfl⟩

/-- Settles O8: ADD's words are those with the alternate bit clear, its effect that of a slot with a result. -/
theorem addAddsTheSourceRegisters : Obligations.AddAddsTheSourceRegisters := by
  unfold Obligations.AddAddsTheSourceRegisters
  exact ⟨fun _ => decode_of_addRow .bit29, fun _ => decode_of_addRow .bit30,
    fun _ _ _ _ _ hwb => writesResult_of_slotWithResult hwb rfl⟩

/-- Settles O9: SUB's words are those with the alternate bit set, its effect that of a slot with a result. -/
theorem subSubtractsTheSourceRegisters : Obligations.SubSubtractsTheSourceRegisters := by
  unfold Obligations.SubSubtractsTheSourceRegisters
  exact ⟨fun _ => decode_of_subRow .bit29, fun _ => decode_of_subRow .bit30,
    fun _ _ _ _ _ hwb => writesResult_of_slotWithResult hwb rfl⟩

end Sys2Proof.Machine
end

section
/-! PROOFS. The other words (spec/42_other_words.md R117 to R131): the unimplemented ALU-class positions and the
non-ALU-class words, what each decodes to and what its slot does. -/

namespace Sys2Proof.Machine

/-! ## Which words they are (R117 to R131) -/

theorem opcode_of_masked_eq {o : BitVec 7} (h : o &&& 0x5F = 0x13) : o = 0x13#7 ∨ o = 0x33#7 :=
  (Laws.AluClass.isAluClass_iff o).mp (beq_iff_eq.mpr h)

theorem isAluClass_of_masked_ne {o : BitVec 7} (h : o &&& 0x5F ≠ 0x13) : isAluClass o = false :=
  beq_eq_false_iff_ne.mpr h

/-- A row by opcode and `funct3` (R118, R119), from what the decoder makes of them. -/
theorem rowDecodes_of_funct3 (f : BitVec 3) {o : BitVec 7} {row : Word → Instr} (ho : o ≠ 0x00#7 ∧ o ≠ 0x7F#7)
    (hd : ∀ alt w, funct3Of w = f → decodeOpcode alt w o = row w) :
    RowDecodes 0x0000707F (unimplementedForm 0 f 0 o) row := by
  intro alt w h
  obtain ⟨how, hf⟩ := (funct3_row w f o).mp h
  rw [decode_of_opcode how ho.1 ho.2, hd alt w hf]

/-- A row of the immediate form (R118). -/
theorem rowDecodes_immediateForm (f : BitVec 3) {row : Word → Instr}
    (hd : ∀ w, funct3Of w = f → decodeImmediateForm w = row w) :
    RowDecodes 0x0000707F (unimplementedForm 0 f 0 0x13#7) row :=
  rowDecodes_of_funct3 f (by decide) fun _ => hd

/-- A row of the register form (R119). -/
theorem rowDecodes_registerForm (f : BitVec 3) {row : Word → Instr}
    (hd : ∀ alt w, funct3Of w = f → decodeRegisterForm alt w = row w) :
    RowDecodes 0x0000707F (unimplementedForm 0 f 0 0x33#7) row :=
  rowDecodes_of_funct3 f (by decide) hd

/-- A row by opcode alone (R84), from what the decoder makes of it. -/
theorem rowDecodes_of_opcode (o : BitVec 7) {row : Word → Instr} (ho : o ≠ 0x00#7 ∧ o ≠ 0x7F#7)
    (hd : ∀ alt w, decodeOpcode alt w o = row w) : RowDecodes 0x0000007F (opcodeForm 0 o) row := by
  intro alt w h
  rw [decode_of_opcode ((opcode_row w o).mp h) ho.1 ho.2, hd alt w]

/-! ## What their slots do (R117, R122) -/

/-- A register after a slot that commits its own record (R100, R108). -/
theorem readReg_afterSlot_default {s : State} (hwb : s.cfg.wbPhase = .writeBack) (w : Word) (r : ExecRecord) (n : Nat)
    (j : RegIx) : (s.afterSlot w r n).readReg j =
      if r.isAluOp = true ∧ j = r.rd ∧ r.rd ≠ 0 then r.aluResult else s.readReg j := by
  rw [readReg_afterSlot, retiring_default hwb, readReg_commit]

/-- Write-Back does not look at storage (R100). -/
theorem commit_withMem (s : State) (m : Memory) (r : ExecRecord) :
    State.commit { s with mem := m } r = { s.commit r with mem := m } := by
  unfold State.commit State.writeReg
  repeat' split
  all_goals rfl

/-- Once its word is fetched, a slot does not look at storage (R52). -/
theorem afterSlot_withMem (s : State) (m : Memory) (w : Word) (r : ExecRecord) (n : Nat) :
    State.afterSlot { s with mem := m } w r n = { s.afterSlot w r n with mem := m } := by
  have hcommit : State.commit { s with mem := m } (State.retiring { s with mem := m } r) =
      { s.commit (s.retiring r) with mem := m } := commit_withMem s m (s.retiring r)
  rw [State.afterSlot, hcommit]
  rfl

/-- With the default `WB_PHASE` a slot with a free result commits it, and is otherwise only the advance of the program
counter and of the draw number. -/
theorem writesFreeWord_of_slotWithFreeResult {i : Instr} {rd : RegIx} {s : State} (hwb : s.cfg.wbPhase = .writeBack)
    (h : exec i s = slotWithFreeResult i rd s) : WritesFreeWord i rd s := by
  refine ⟨_, h, fun j => ?_, afterSlot_pc _ _ _ _, surroundings_afterSlot _ _ _ _, rfl⟩
  rw [readReg_afterSlot_default hwb]
  exact if_congr (and_iff_right rfl) rfl rfl

/-- With the default `WB_PHASE` a slot whose record has no flag writes no register. -/
theorem readReg_afterSlot_noFlag {s : State} (hwb : s.cfg.wbPhase = .writeBack) (w : Word) {r : ExecRecord}
    (hr : r.isAluOp = false) (n : Nat) (j : RegIx) : (s.afterSlot w r n).readReg j = s.readReg j := by
  rw [readReg_afterSlot_default hwb, hr, if_neg fun h => Bool.false_ne_true h.1]

/-- With the default `WB_PHASE` a slot without a result is the advance of the program counter, whatever storage holds. -/
theorem onlyPcAdvances_of_slotWithoutResult {i : Instr} (h : ∀ s, exec i s = slotWithoutResult i s) {s : State}
    (hwb : s.cfg.wbPhase = .writeBack) : OnlyPcAdvances i s := by
  refine ⟨_, h s, readReg_afterSlot_noFlag hwb _ rfl _, afterSlot_pc _ _ _ _, surroundings_afterSlot _ _ _ _,
    fun m => ?_⟩
  rw [h, slotWithoutResult, afterSlot_withMem]

/-! ## The unimplemented ALU-class positions (R117 to R119) -/

/-- Settles O10: each position by its `funct3` among the rows of the immediate form, its effect that of a slot with a free
result. -/
theorem unimplementedImmediateFormWritesAFreeWord : Obligations.UnimplementedImmediateFormWritesAFreeWord := by
  unfold Obligations.UnimplementedImmediateFormWritesAFreeWord
  refine ⟨rowDecodes_immediateForm 0b001#3 ?_, rowDecodes_immediateForm 0b010#3 ?_,
    rowDecodes_immediateForm 0b011#3 ?_, rowDecodes_immediateForm 0b100#3 ?_,
    rowDecodes_immediateForm 0b101#3 ?_, rowDecodes_immediateForm 0b110#3 ?_,
    rowDecodes_immediateForm 0b111#3 ?_, fun rd other s hwb => ?effect⟩
  case effect => refine ⟨?_, ?_, ?_, ?_, ?_, ?_, ?_⟩ <;> exact writesFreeWord_of_slotWithFreeResult hwb rfl
  all_goals
    intro w hf
    rw [decodeImmediateForm, hf]
    rfl

/-- Settles O11: as O10, among the rows of the register form, of which only `funct3` 000 looks at `funct7`. -/
theorem unimplementedRegisterFormWritesAFreeWord : Obligations.UnimplementedRegisterFormWritesAFreeWord := by
  unfold Obligations.UnimplementedRegisterFormWritesAFreeWord
  refine ⟨rowDecodes_registerForm 0b001#3 ?_, rowDecodes_registerForm 0b010#3 ?_,
    rowDecodes_registerForm 0b011#3 ?_, rowDecodes_registerForm 0b100#3 ?_,
    rowDecodes_registerForm 0b101#3 ?_, rowDecodes_registerForm 0b110#3 ?_,
    rowDecodes_registerForm 0b111#3 ?_, fun rd other s hwb => ?effect⟩
  case effect => refine ⟨?_, ?_, ?_, ?_, ?_, ?_, ?_⟩ <;> exact writesFreeWord_of_slotWithFreeResult hwb rfl
  all_goals
    intro alt w hf
    rw [decodeRegisterForm, hf]
    rfl

/-- Every row of the immediate form but ADDI's runs a slot with a free result. -/
theorem exec_decodeImmediateForm {w : Word} (hf : funct3Of w ≠ 0) (s : State) :
    exec (decodeImmediateForm w) s = slotWithFreeResult (decodeImmediateForm w) (rdOf w) s := by
  unfold decodeImmediateForm
  split
  case h_1 h => exact absurd h hf
  all_goals rfl

/-- Every row of the register form but ADD's and SUB's runs a slot with a free result. -/
theorem exec_decodeRegisterForm (alt : AltBit) {w : Word} (hf : funct3Of w ≠ 0) (s : State) :
    exec (decodeRegisterForm alt w) s = slotWithFreeResult (decodeRegisterForm alt w) (rdOf w) s := by
  unfold decodeRegisterForm
  split
  case h_1 h => exact absurd h hf
  all_goals rfl

/-- Settles O58: an ALU-class opcode is that of one of the two forms, and there `funct3` other than 000 leads to a slot
with a free result. -/
theorem everyUnimplementedAluWordWritesAFreeWord : Obligations.EveryUnimplementedAluWordWritesAFreeWord := by
  unfold Obligations.EveryUnimplementedAluWordWritesAFreeWord
  intro alt w s hwb halu hf
  apply writesFreeWord_of_slotWithFreeResult hwb
  rcases opcode_of_masked_eq halu with ho | ho
  · rw [decode_of_opcode ho (by decide) (by decide)]
    exact exec_decodeImmediateForm hf s
  · rw [decode_of_opcode ho (by decide) (by decide)]
    exact exec_decodeRegisterForm alt hf s

/-! ## The labelled no-op opcodes (R123 to R131) -/

/-- Settles O12: one row per opcode, the effect of each that of a slot without a result. -/
theorem loadStoreAndJumpWordsAreNoOps : Obligations.LoadStoreAndJumpWordsAreNoOps := by
  unfold Obligations.LoadStoreAndJumpWordsAreNoOps
  refine ⟨rowDecodes_of_opcode 0x03#7 (by decide) fun _ _ => rfl, rowDecodes_of_opcode 0x23#7 (by decide) fun _ _ => rfl,
    rowDecodes_of_opcode 0x63#7 (by decide) fun _ _ => rfl, rowDecodes_of_opcode 0x6F#7 (by decide) fun _ _ => rfl,
    rowDecodes_of_opcode 0x67#7 (by decide) fun _ _ => rfl, fun other s hwb => ?_⟩
  refine ⟨?_, ?_, ?_, ?_, ?_⟩ <;> exact onlyPcAdvances_of_slotWithoutResult (fun _ => rfl) hwb

/-- Settles O13: one row per opcode, the effect of each that of a slot without a result. -/
theorem upperImmediateFenceAndSystemWordsAreNoOps : Obligations.UpperImmediateFenceAndSystemWordsAreNoOps := by
  unfold Obligations.UpperImmediateFenceAndSystemWordsAreNoOps
  refine ⟨rowDecodes_of_opcode 0x37#7 (by decide) fun _ _ => rfl, rowDecodes_of_opcode 0x17#7 (by decide) fun _ _ => rfl,
    rowDecodes_of_opcode 0x0F#7 (by decide) fun _ _ => rfl, rowDecodes_of_opcode 0x73#7 (by decide) fun _ _ => rfl,
    fun other s hwb => ?_⟩
  refine ⟨?_, ?_, ?_, ?_⟩ <;> exact onlyPcAdvances_of_slotWithoutResult (fun _ => rfl) hwb

/-! ## The slot as a step and as five cycles (R89, R108, R109) -/

/-- At a slot boundary the step is the meaning of the fetched word (R108). -/
theorem step_of_busRead_ok {s : State} {w : Word} (hs : s.AtSlotStart) (hb : busRead s s.pc = .ok w) :
    step s = exec (decode s.cfg.altBit w) s := by
  rw [step, hs.1, hs.2, fetchInstr, hb]

theorem runCycles_succ_of_next {n : Nat} {s t : State} (h : cycle s = .next t) :
    runCycles (n + 1) s = runCycles n t := by
  rw [runCycles, h]

section
variable (s : State) (w : Word)

/-- A slot of the word after its Fetch cycle (R91). -/
def State.fetched : State :=
  { s with ifStage := Latch.both { pc := s.pc + 4, instr := w }, phase := .decode }

/-- The slot after its Decode cycle: the operands are those of the slot's beginning (R93). -/
def State.decoded : State :=
  { s.fetched w with deStage := Latch.both (decodedRecord s w), phase := .execute }

/-- The record that the slot's Execute cycle computes (R95 to R97). -/
def State.slotRecord : ExecRecord :=
  { aluResult :=
      if hasResult (decodedRecord s w) then aluResult s.cfg.altBit (decodedRecord s w) else Config.freeWord s.draws.cur
    rd := rdOf w
    isAluOp := isAluClass (opcodeOf w) }

/-- The draw number after the slot's Execute cycle (R97). -/
def State.slotDraws : Nat := if hasResult (decodedRecord s w) then s.draws.cur else s.draws.cur + 1

/-- The slot after its Execute cycle. -/
def State.executed : State :=
  { s.decoded w with
    exStage := Latch.both (s.slotRecord w), draws := Latch.both (s.slotDraws w), phase := .memoryAccess }

/-- The slot after its Memory-Access cycle (R99). -/
def State.accessed : State :=
  { s.executed w with
    regs := (computeWB (s.executed w)).regs, maStage := Latch.both (s.slotRecord w), phase := .writeBack }

/-- In a slot's last two cycles WB is at work once, in the phase it is wired to, on the record MA holds there (R108, R109). -/
theorem computeWB_accessed_regs : (computeWB (s.accessed w)).regs = (s.commit (s.retiring (s.slotRecord w))).regs := by
  cases hwb : s.cfg.wbPhase with
  | writeBack =>
    have hphase : writeBackPhase s.cfg = .writeBack := by rw [writeBackPhase, hwb]
    have hstalled : computeWB (s.executed w) = s.executed w := computeWB_stalled fun hp => by cases hp.trans hphase
    have hregs : (s.accessed w).regs = s.regs := (congrArg State.regs hstalled :)
    rw [retiring_default hwb, computeWB_active (s := s.accessed w) hphase.symm]
    exact commit_regs_congr hregs (s.slotRecord w)
  | memoryAccess =>
    have hphase : writeBackPhase s.cfg = .memoryAccess := by rw [writeBackPhase, hwb]
    rw [retiring_delayed hwb, computeWB_stalled (s := s.accessed w) fun hp => by cases hp.trans hphase]
    calc (computeWB (s.executed w)).regs
        = ((s.executed w).commit s.maStage.cur).regs := congrArg State.regs (computeWB_active hphase.symm)
      _ = (s.commit s.maStage.cur).regs := commit_regs_congr (s := s) (t := s.executed w) rfl _

end

/-- Five cycles from a slot boundary are the slot as one operation, when the bus answers its word. -/
theorem runCycles_five {s : State} {w : Word} (hs : s.AtSlotStart) (h : s.Settled) (hb : busRead s s.pc = .ok w) :
    runCycles 5 s = .next (s.afterSlot w (s.slotRecord w) (s.slotDraws w)) := by
  have ⟨hrun, hp⟩ := hs
  have ⟨_, hde, hex, hma, hdraws⟩ := h
  have hfetch : cycle s = .next (s.fetched w) := cycle_fetch_ok hs h hb
  have hdecode : cycle (s.fetched w) = .next (s.decoded w) := cycle_decode hrun ⟨rfl, hde, hex, hma, hdraws⟩ rfl
  have hexecute : cycle (s.decoded w) = .next (s.executed w) := cycle_execute hrun ⟨rfl, rfl, hex, hma, hdraws⟩ rfl
  have haccess : cycle (s.executed w) = .next (s.accessed w) := cycle_memoryAccess hrun ⟨rfl, rfl, rfl, hma, rfl⟩ rfl
  have hwrite : cycle (s.accessed w) = .next (s.afterSlot w (s.slotRecord w) (s.slotDraws w)) := by
    rw [cycle_writeBack (s := s.accessed w) hrun ⟨rfl, rfl, rfl, rfl, rfl⟩ rfl, computeWB_accessed_regs,
      State.afterSlot, commit_eq s, hp]
    rfl
  rw [runCycles_succ_of_next hfetch, runCycles_succ_of_next hdecode, runCycles_succ_of_next hexecute,
    runCycles_succ_of_next haccess, runCycles_succ_of_next hwrite, runCycles]

/-! ## Every non-ALU-class word (R122) -/

/-- Every opcode that is not ALU-class is decoded to a row whose slot has no result. -/
theorem exec_decodeOpcode_of_not_aluClass (alt : AltBit) (w : Word) {o : BitVec 7} (h : o &&& 0x5F ≠ 0x13) (s : State) :
    exec (decodeOpcode alt w o) s = slotWithoutResult (decodeOpcode alt w o) s := by
  unfold decodeOpcode
  split
  case h_1 => exact absurd rfl h
  case h_2 => exact absurd rfl h
  all_goals rfl

theorem exec_decode_of_not_aluClass (alt : AltBit) {w : Word} (h : opcodeOf w &&& 0x5F ≠ 0x13) (s : State) :
    exec (decode alt w) s = slotWithoutResult (decode alt w) s := by
  unfold decode
  split
  case isTrue => rfl
  case isFalse =>
    split
    case isTrue => rfl
    case isFalse => exact exec_decodeOpcode_of_not_aluClass alt w h s

/-- The slot of a non-ALU-class word as one operation is its five cycles: Execute computes no result and clears the flag
(R122). -/
theorem slotWithoutResult_decode (alt : AltBit) {w : Word} (h : opcodeOf w &&& 0x5F ≠ 0x13) (s : State) :
    slotWithoutResult (decode alt w) s = .next (s.afterSlot w (s.slotRecord w) (s.slotDraws w)) := by
  have hres : hasResult (decodedRecord s w) = false := Bool.eq_false_iff.mpr fun hr => h ((hasResult_iff _).mp hr).1
  have hword : encode (decode alt w) = w := (decode_standsFor alt w).2
  rw [slotWithoutResult, hword, State.slotRecord, State.slotDraws, hres, isAluClass_of_masked_ne h]
  rfl

/-- Settles O59: the slot of the decoded word is its five cycles, and its record has no flag. -/
theorem everyNonAluWordOnlyAdvancesPc : Obligations.EveryNonAluWordOnlyAdvancesPc := by
  unfold Obligations.EveryNonAluWordOnlyAdvancesPc
  intro s w hs h hwb hb hnot
  have hexec := exec_decode_of_not_aluClass s.cfg.altBit hnot
  have hslot := (hexec s).trans (slotWithoutResult_decode s.cfg.altBit hnot s)
  have hflag : (s.slotRecord w).isAluOp = false := isAluClass_of_masked_ne hnot
  exact ⟨onlyPcAdvances_of_slotWithoutResult hexec hwb, _, (step_of_busRead_ok hs hb).trans hslot, runCycles_five hs h hb,
    hslot, readReg_afterSlot_noFlag hwb w hflag _, afterSlot_pc _ _ _ _, surroundings_afterSlot _ _ _ _, rfl, hflag⟩

end Sys2Proof.Machine
end

section
/-! PROOFS. What a failed cycle leaves (spec/60_exceptions.md R147; R107): where its condition came from, and the Faulted
machine from then until a reset. -/

namespace Sys2Proof.Machine

/-! ## A cycle that fails (R107, R147) -/

/-- A Faulted machine's cycle reports the condition it stopped with. -/
theorem cycle_of_faulted {s : State} {f : Fault} (hs : s.status = .faulted f) : cycle s = .fault f := by
  rw [cycle, hs]

/-- Of a Running machine's cycle only the bus read of a Fetch cycle raises a condition. -/
theorem fetch_of_cycle_fault {s : State} {f : Fault} (hs : s.status = .running) (h : cycle s = .fault f) :
    s.phase = .fetch ∧ busRead s s.pc = .error f := by
  rcases cycle_cases s with ⟨g, hfaulted, _⟩ | ⟨g, _, hp, hb, h'⟩ | ⟨w, _, _, _, h'⟩ | ⟨_, _, h'⟩
  · rw [hs] at hfaulted
    cases hfaulted
  · rw [h] at h'
    cases h'
    exact ⟨hp, hb⟩
  · rw [h] at h'
    cases h'
  · rw [h] at h'
    cases h'

/-! ## The machine the host is left with (R147, R160) -/

theorem hostCycle_of_cycle_fault {s : State} {f : Fault} (h : cycle s = .fault f) :
    hostCycle s = { machine := s.takeFault f, raised := some f } := by
  rw [hostCycle, h]

/-- Stopping with the condition it has already stopped with changes nothing. -/
theorem takeFault_of_faulted {s : State} {f : Fault} (hs : s.status = .faulted f) : s.takeFault f = s := by
  rw [State.takeFault, ← hs]

/-- On a Faulted machine a `cycle()` call does nothing. -/
theorem hostCycle_of_faulted {s : State} {f : Fault} (hs : s.status = .faulted f) :
    hostCycle s = { machine := s, raised := some f } := by
  rw [hostCycle_of_cycle_fault (cycle_of_faulted hs), takeFault_of_faulted hs]

@[simp] theorem hostInspectReg_takeFault (s : State) (f : Fault) (i : RegIx) :
    hostInspectReg (s.takeFault f) i = hostInspectReg s i :=
  readReg_congr (takeFault_regs s f) i

@[simp] theorem hostInspectBus_takeFault (s : State) (f : Fault) (a : Word) :
    hostInspectBus (s.takeFault f) a = hostInspectBus s a :=
  busRead_congr (takeFault_cfg s f) (takeFault_mem s f) a

@[simp] theorem hostReset_status (p : LaunchParams) (s : State) : (hostReset p s).status = .running := rfl

/-- Settles O34: the condition is the Fetch cycle's, and of the Faulted machine the host sees what it saw before. -/
theorem failedCycleChangesOnlyTheStatus : Obligations.FailedCycleChangesOnlyTheStatus := by
  unfold Obligations.FailedCycleChangesOnlyTheStatus
  intro s f hs h
  obtain ⟨hp, hb⟩ := fetch_of_cycle_fault hs h
  have hleft : hostCycle s = { machine := s.takeFault f, raised := some f } := hostCycle_of_cycle_fault h
  have hagain : hostCycle (s.takeFault f) = { machine := s.takeFault f, raised := some f } :=
    hostCycle_of_faulted (takeFault_status s f)
  refine ⟨hp, hb, hleft, hagain, ?_⟩
  rw [hleft]
  exact ⟨hostInspectReg_takeFault s f, hostInspectBus_takeFault s f, fun p => hostReset_status p _⟩

end Sys2Proof.Machine
end

section
/-! PROOFS. The decoder against the encoder and against the opcode table (spec/30_encoding.md R74, R84; 95_test_vectors.md). -/

namespace Sys2Proof

/-! ## Decoding an encoded word (R74, R84) -/

theorem decode_immediateForm (alt : AltBit) (imm : BitVec 12) (rs1 rd : RegIx) :
    decode alt (immediateForm imm rs1 0b000#3 rd 0x13#7) = .addi rd rs1 imm := by
  rw [decode_addi alt (by simp) (by simp)]
  simp

theorem decode_registerForm (alt : AltBit) (funct7 : BitVec 7) (rs2 rs1 rd : RegIx) :
    decode alt (registerForm funct7 rs2 rs1 0b000#3 rd 0x33#7) =
      if alt.isSet funct7 then .sub rd rs1 rs2 funct7 else .add rd rs1 rs2 funct7 := by
  rw [decode_add_or_sub alt (by simp) (by simp)]
  simp

theorem decode_unimplementedForm_immediate (alt : AltBit) (other : BitVec 17) (f : BitVec 3) (rd : RegIx) :
    decode alt (unimplementedForm other f rd 0x13#7) = decodeImmediateForm (unimplementedForm other f rd 0x13#7) :=
  decode_of_opcode (opcodeOf_unimplementedForm ..) (by decide) (by decide)

theorem decode_unimplementedForm_register (alt : AltBit) (other : BitVec 17) (f : BitVec 3) (rd : RegIx) :
    decode alt (unimplementedForm other f rd 0x33#7) = decodeRegisterForm alt (unimplementedForm other f rd 0x33#7) :=
  decode_of_opcode (opcodeOf_unimplementedForm ..) (by decide) (by decide)

theorem decode_opcodeForm (alt : AltBit) (other : BitVec 25) {o : BitVec 7} (ho : o ≠ 0x00#7 ∧ o ≠ 0x7F#7) :
    decode alt (opcodeForm other o) = decodeOpcode alt (opcodeForm other o) o :=
  decode_of_opcode (opcodeOf_opcodeForm ..) ho.1 ho.2

/-- An opcode that no row names is left to the decoder's last row. -/
theorem decodeOpcode_of_not_named (alt : AltBit) (w : Word) {o : BitVec 7} (h : o ∉ namedOpcodes) :
    decodeOpcode alt w o = .nopOther w := by
  unfold decodeOpcode
  split
  case h_22 => rfl
  all_goals exact absurd (by decide) h

theorem decode_of_not_named (alt : AltBit) {w : Word} (hz : w ≠ 0) (hones : w ≠ 0xFFFFFFFF#32)
    (h : opcodeOf w ∉ namedOpcodes) : decode alt w = .nopOther w := by
  rw [decode, if_neg hz, if_neg hones, decodeOpcode_of_not_named alt w h]

theorem wf_nopOther_iff {alt : AltBit} {w : Word} :
    (Instr.nopOther w).wf alt = true ↔ w ≠ 0 ∧ w ≠ 0xFFFFFFFF#32 ∧ opcodeOf w ∉ namedOpcodes := by
  simp [Instr.wf, opcodeOf, and_assoc]

/-- Decoding inverts encoding on well-formed instructions, row by row. -/
theorem decode_encode (alt : AltBit) (i : Instr) (h : i.wf alt = true) : decode alt (encode i) = i := by
  cases i with
  | addi rd rs1 imm => exact decode_immediateForm alt imm rs1 rd
  | add rd rs1 rs2 funct7 =>
    have hclear : alt.isSet funct7 = false := by simpa [Instr.wf] using h
    rw [encode, decode_registerForm, hclear, if_neg Bool.false_ne_true]
  | sub rd rs1 rs2 funct7 =>
    have hset : alt.isSet funct7 = true := h
    rw [encode, decode_registerForm, if_pos hset]
  | nopZeroWord => rfl
  | nopOnesWord => rfl
  | nopOther word =>
    obtain ⟨hz, hones, hn⟩ := wf_nopOther_iff.mp h
    exact decode_of_not_named alt hz hones hn
  | undefOpimm001 | undefOpimm010 | undefOpimm011 | undefOpimm100 | undefOpimm101 | undefOpimm110 | undefOpimm111 =>
    simp [encode, decode_unimplementedForm_immediate, decodeImmediateForm]
  | undefOp001 | undefOp010 | undefOp011 | undefOp100 | undefOp101 | undefOp110 | undefOp111 =>
    simp [encode, decode_unimplementedForm_register, decodeRegisterForm]
  | _ =>
    rw [encode, decode_opcodeForm alt _ (by decide)]
    simp [decodeOpcode]

/-! ## The opcode table (R84) -/

theorem matchesWord_iff {r : OpcodeRow} {w : Word} : r.matchesWord w = true ↔ w &&& r.mask = r.bits := beq_iff_eq

/-- A first match stays the first where the test is made stricter but still met. -/
theorem find?_eq_some_of_imp {α : Type} {p q : α → Bool} (hpq : ∀ x, p x = true → q x = true) {a : α} (ha : p a = true)
    {l : List α} (h : l.find? q = some a) : l.find? p = some a := by
  obtain ⟨-, before, after, rfl, hbefore⟩ := List.find?_eq_some_iff_append.mp h
  refine List.find?_eq_some_iff_append.mpr ⟨ha, before, after, rfl, fun x hx => ?_⟩
  have hq : ¬ q x = true := by simpa using hbefore x hx
  simpa using mt (hpq x) hq

/-- The key `k`, the bits of a word under a mask `m`, leads to a row of the table: the row is the first that the key does
not shut out, and it tests no bit outside `m`. -/
def KeyLeadsTo (alt : AltBit) (m k : Word) (name : String) : Prop :=
  ∃ r, (opcodeTable alt).find? (fun r => k &&& r.mask == r.bits &&& m) = some r ∧
    r.mask &&& m = r.mask ∧ k &&& r.mask = r.bits ∧ r.mnemonic = name

theorem tableMnemonic_of_key {alt : AltBit} {m k w : Word} {name : String} (hk : w &&& m = k)
    (h : KeyLeadsTo alt m k name) : tableMnemonic alt w = some name := by
  obtain ⟨r, hfirst, hmask, hbits, rfl⟩ := h
  have hmatch : r.matchesWord w = true := by
    rw [matchesWord_iff, ← hbits, ← hk, BitVec.and_assoc, BitVec.and_comm m, hmask]
  have himp (x : OpcodeRow) (hx : x.matchesWord w = true) : (k &&& x.mask == x.bits &&& m) = true := by
    rw [beq_iff_eq, ← hk, ← matchesWord_iff.mp hx, BitVec.and_assoc, BitVec.and_assoc, BitVec.and_comm m]
  rw [tableMnemonic, find?_eq_some_of_imp himp hmatch hfirst]
  rfl

theorem tableMnemonic_immediateForm (alt : AltBit) {w : Word} (ho : opcodeOf w = 0x13#7) :
    tableMnemonic alt w = some (mnemonicOf (decodeImmediateForm w)) := by
  unfold decodeImmediateForm
  split <;>
  · refine tableMnemonic_of_key ((funct3_row w _ _).mpr ⟨ho, ‹_›⟩) ?_
    cases alt <;> exact ⟨_, rfl, rfl, rfl, rfl⟩

theorem tableMnemonic_registerForm (alt : AltBit) {w : Word} (ho : opcodeOf w = 0x33#7) :
    tableMnemonic alt w = some (mnemonicOf (decodeRegisterForm alt w)) := by
  unfold decodeRegisterForm
  split
  case h_1 hf =>
    split
    case isTrue hset =>
      refine tableMnemonic_of_key ((alternate_row alt w _ _ true).mpr ⟨ho, hf, hset⟩) ?_
      cases alt <;> exact ⟨_, rfl, rfl, rfl, rfl⟩
    case isFalse hclear =>
      refine tableMnemonic_of_key ((alternate_row alt w _ _ false).mpr ⟨ho, hf, Bool.eq_false_iff.mpr hclear⟩) ?_
      cases alt <;> exact ⟨_, rfl, rfl, rfl, rfl⟩
  all_goals
    refine tableMnemonic_of_key ((funct3_row w _ _).mpr ⟨ho, ‹_›⟩) ?_
    cases alt <;> exact ⟨_, rfl, rfl, rfl, rfl⟩

/-- Every row but the last tests the whole opcode, against a named one, or is that of a constant word. -/
theorem rows_of_namedOpcodes (alt : AltBit) : ∀ r ∈ addSubRows alt ++ unimplementedRows ++ labelledRows,
    (opcodeOf r.mask = 0x7F#7 ∧ opcodeOf r.bits ∈ namedOpcodes) ∨
    (r.mask = 0xFFFFFFFF ∧ (r.bits = 0 ∨ r.bits = 0xFFFFFFFF)) := by
  cases alt <;> decide

theorem opcodeOf_and (w m : Word) : opcodeOf (w &&& m) = opcodeOf w &&& opcodeOf m := BitVec.extractLsb'_and

/-- A word that no other row names is left to the table's last row. -/
theorem tableMnemonic_of_not_named (alt : AltBit) {w : Word} (hz : w ≠ 0) (hones : w ≠ 0xFFFFFFFF#32)
    (hn : opcodeOf w ∉ namedOpcodes) : tableMnemonic alt w = some "NOP.OTHER" := by
  have hnone : (addSubRows alt ++ unimplementedRows ++ labelledRows).find? (fun r => r.matchesWord w) = none := by
    refine List.find?_eq_none.mpr fun r hr hmatch => ?_
    rw [matchesWord_iff] at hmatch
    rcases rows_of_namedOpcodes alt r hr with ⟨hmask, hbits⟩ | ⟨hmask, hbits⟩
    · rw [← hmatch, opcodeOf_and, hmask, and_ones_7] at hbits
      exact hn hbits
    · have hw : w &&& r.mask = w := by rw [hmask]; exact BitVec.and_allOnes
      rw [hw] at hmatch
      rw [← hmatch] at hbits
      exact hbits.elim hz hones
  have hlast : OpcodeRow.matchesWord ⟨"NOP.OTHER", 0x00000000, 0x00000000⟩ w = true :=
    matchesWord_iff.mpr BitVec.and_zero
  rw [tableMnemonic, opcodeTable, List.find?_append, hnone,
    List.find?_cons_of_pos (p := fun r => OpcodeRow.matchesWord r w) hlast]
  rfl

theorem tableMnemonic_opcode (alt : AltBit) {w : Word} {o : BitVec 7} (ho : opcodeOf w = o) (hz : w ≠ 0)
    (hones : w ≠ 0xFFFFFFFF#32) : tableMnemonic alt w = some (mnemonicOf (decodeOpcode alt w o)) := by
  by_cases hn : o ∈ namedOpcodes
  · unfold decodeOpcode
    split
    case h_1 => exact tableMnemonic_immediateForm alt ho
    case h_2 => exact tableMnemonic_registerForm alt ho
    case h_22 => simp_all [namedOpcodes]
    all_goals
      refine tableMnemonic_of_key ((opcode_row w _).mpr ho) ?_
      cases alt <;> exact ⟨_, rfl, rfl, rfl, rfl⟩
  · rw [decodeOpcode_of_not_named alt w hn]
    exact tableMnemonic_of_not_named alt hz hones (ho ▸ hn)

theorem tableMnemonic_eq (alt : AltBit) (w : Word) : tableMnemonic alt w = some (mnemonicOf (decode alt w)) := by
  by_cases hz : w = 0
  · subst hz
    cases alt <;> rfl
  by_cases hones : w = 0xFFFFFFFF#32
  · subst hones
    cases alt <;> rfl
  rw [decode, if_neg hz, if_neg hones]
  exact tableMnemonic_opcode alt rfl hz hones

end Sys2Proof

namespace Sys2Proof.Machine

/-- Settles O1, row by row from the fields of an encoded word. -/
theorem decodeInvertsEncode : Obligations.DecodeInvertsEncode := by
  unfold Obligations.DecodeInvertsEncode
  exact decode_encode

/-- Settles O3: the bits that choose the decoder's row for a word shut every earlier row of the table out. -/
theorem decoderFollowsOpcodeTable : Obligations.DecoderFollowsOpcodeTable := by
  unfold Obligations.DecoderFollowsOpcodeTable
  exact tableMnemonic_eq

/-- Settles O4: each word's fields compute to the operands the spec reads. -/
theorem specExampleWordsDecode : Obligations.SpecExampleWordsDecode := by
  unfold Obligations.SpecExampleWordsDecode
  intro alt
  cases alt <;> exact ⟨rfl, rfl, rfl, rfl, rfl, rfl, rfl, rfl, rfl, rfl⟩

end Sys2Proof.Machine
end

section
/-! PROOFS. The instruction's slot (spec/40_pipeline_stages.md R108, R109; 42_other_words.md R122, R132, R133): what it is for
every word, and what every instruction leaves alone. -/

namespace Sys2Proof.Machine

/-! ## The slot of a word (R108, R109) -/

section
variable {s : State} {w : Word}

/-- The slot of a word whose result the spec gives. -/
theorem slotWithResult_eq {i : Instr} (hi : encode i = w) (hres : hasResult (decodedRecord s w) = true) :
    slotWithResult i (rdOf w) (aluResult s.cfg.altBit (decodedRecord s w)) s =
      .next (s.afterSlot w (s.slotRecord w) (s.slotDraws w)) := by
  have hflag : isAluClass (opcodeOf w) = true := beq_iff_eq.mpr ((hasResult_iff _).mp hres).1
  rw [slotWithResult, hi, State.slotRecord, State.slotDraws, if_pos hres, if_pos hres, hflag]

/-- The slot of an ALU-class word without one. -/
theorem slotWithFreeResult_eq {i : Instr} (hi : encode i = w) (halu : isAluClass (opcodeOf w) = true)
    (hres : hasResult (decodedRecord s w) = false) :
    slotWithFreeResult i (rdOf w) s = .next (s.afterSlot w (s.slotRecord w) (s.slotDraws w)) := by
  rw [slotWithFreeResult, hi, State.slotRecord, State.slotDraws, hres, halu]
  rfl

/-- The ALU's result for a word, by its bits 5 and `ALT_BIT` (R71, R75, R96). -/
theorem aluResult_decodedRecord (alt : AltBit) (s : State) (w : Word) :
    aluResult alt (decodedRecord s w) =
      if w.getLsbD 5 = false then s.readReg (rs1Of w) + sext12 (immOf w)
      else if w.getLsbD alt.index then s.readReg (rs1Of w) - s.readReg (rs2Of w)
      else s.readReg (rs1Of w) + s.readReg (rs2Of w) := by
  have hform : isRegisterForm (opcodeOf w) = w.getLsbD 5 := by simp [isRegisterForm, opcodeOf]
  have halt : isAlternate alt (immOf w) = w.getLsbD alt.index := by
    cases alt <;> simp [isAlternate, AltBit.index, immOf]
  rw [aluResult, decodedRecord, hform, halt]
  cases w.getLsbD 5 <;> rfl

/-- ADDI's, ADD's and SUB's words run the slot that the ALU's result makes (R111 to R113). -/
theorem exec_decode_of_result (halu : opcodeOf w &&& 0x5F = 0x13) (hf : funct3Of w = 0) :
    exec (decode s.cfg.altBit w) s =
      slotWithResult (decode s.cfg.altBit w) (rdOf w) (aluResult s.cfg.altBit (decodedRecord s w)) s := by
  have hbit : w.getLsbD 5 = (opcodeOf w).getLsbD 5 := by simp [opcodeOf]
  rw [aluResult_decodedRecord, hbit]
  rcases opcode_of_masked_eq halu with ho | ho
  · rw [decode_addi _ ho hf, ho]
    rfl
  · rw [decode_add_or_sub _ ho hf, isSet_funct7Of, ho]
    cases w.getLsbD s.cfg.altBit.index <;> rfl

/-- The unimplemented ALU-class words run a slot with a free result (R117). -/
theorem exec_decode_of_unimplemented (alt : AltBit) (halu : opcodeOf w &&& 0x5F = 0x13) (hf : funct3Of w ≠ 0) :
    exec (decode alt w) s = slotWithFreeResult (decode alt w) (rdOf w) s := by
  rcases opcode_of_masked_eq halu with ho | ho
  · rw [decode_of_opcode ho (by decide) (by decide)]
    exact exec_decodeImmediateForm hf s
  · rw [decode_of_opcode ho (by decide) (by decide)]
    exact exec_decodeRegisterForm alt hf s

end

/-- Every word's instruction is the slot whose record Execute computes from the word (R95 to R97, R108). -/
theorem exec_decode (s : State) (w : Word) :
    exec (decode s.cfg.altBit w) s = .next (s.afterSlot w (s.slotRecord w) (s.slotDraws w)) := by
  have hword : encode (decode s.cfg.altBit w) = w := (decode_standsFor s.cfg.altBit w).2
  by_cases halu : opcodeOf w &&& 0x5F = 0x13
  · by_cases hf : funct3Of w = 0
    · rw [exec_decode_of_result halu hf, slotWithResult_eq hword ((hasResult_iff _).mpr ⟨halu, hf⟩)]
    · have hres : hasResult (decodedRecord s w) = false := Bool.eq_false_iff.mpr fun h => hf ((hasResult_iff _).mp h).2
      rw [exec_decode_of_unimplemented _ halu hf, slotWithFreeResult_eq hword (beq_iff_eq.mpr halu) hres]
  · rw [exec_decode_of_not_aluClass _ halu, slotWithoutResult_decode _ halu]

/-- Every well-formed instruction's slot is that of its word. -/
theorem exec_of_wf {i : Instr} {s : State} (h : i.wf s.cfg.altBit = true) :
    exec i s = .next (s.afterSlot (encode i) (s.slotRecord (encode i)) (s.slotDraws (encode i))) := by
  rw [← exec_decode, decode_encode _ i h]

/-- A step from a slot boundary whose fetch succeeds is the fetched word's slot (R108). -/
theorem step_eq_slot {s : State} {w : Word} (hs : s.AtSlotStart) (hb : busRead s s.pc = .ok w) :
    step s = .next (s.afterSlot w (s.slotRecord w) (s.slotDraws w)) := by
  rw [step_of_busRead_ok hs hb, exec_decode]

theorem step_of_busRead_error {s : State} {f : Fault} (hs : s.AtSlotStart) (hb : busRead s s.pc = .error f) :
    step s = .fault f := by
  rw [step, hs.1, hs.2, fetchInstr, hb]

/-- Settles O19: at a slot boundary the step is the fetch and then the instruction. -/
theorem stepRunsTheFetchedInstruction : Obligations.StepRunsTheFetchedInstruction := by
  unfold Obligations.StepRunsTheFetchedInstruction
  exact fun s hs => ⟨fun w => step_of_busRead_ok hs, fun f => step_of_busRead_error hs⟩

/-- Settles O18: the slot puts the record of the instruction's own word in every pair. -/
theorem latchesHoldTheRetiredInstruction : Obligations.LatchesHoldTheRetiredInstruction := by
  unfold Obligations.LatchesHoldTheRetiredInstruction
  intro i s hwf
  exact ⟨_, exec_of_wf hwf, ⟨rfl, rfl, rfl, rfl, rfl⟩, rfl, ⟨rfl, rfl, rfl, rfl, rfl, rfl⟩, rfl, rfl, rfl, rfl,
    fun hres => if_pos hres, rfl⟩

/-- A register after a slot with the source's wiring: the pending record is the one committed (R109). -/
theorem readReg_afterSlot_delayed {s : State} (hwb : s.cfg.wbPhase = .memoryAccess) (w : Word) (r : ExecRecord) (n : Nat)
    (j : RegIx) : (s.afterSlot w r n).readReg j =
      if s.maStage.cur.isAluOp = true ∧ j = s.maStage.cur.rd ∧ s.maStage.cur.rd ≠ 0 then s.maStage.cur.aluResult
      else s.readReg j := by
  rw [readReg_afterSlot, retiring_delayed hwb, readReg_commit]

/-- Settles O20: the slot of the fetched word commits the word's own record, whose result the word's bits choose. -/
theorem stepIsTheInstructionLevelStep : Obligations.StepIsTheInstructionLevelStep := by
  unfold Obligations.StepIsTheInstructionLevelStep
  intro s w hs hwb hb
  refine ⟨_, step_eq_slot hs hb, afterSlot_pc _ _ _ _, surroundings_afterSlot _ _ _ _, fun j => ?_⟩
  rw [readReg_afterSlot_default hwb, ← aluResult_decodedRecord]
  by_cases halu : opcodeOf w &&& 0x5F = 0x13
  · have hres : hasResult (decodedRecord s w) = true ↔ funct3Of w = 0 := (hasResult_iff _).trans (and_iff_right halu)
    exact if_congr (and_congr_left' beq_iff_eq) (if_congr hres rfl rfl) rfl
  · rw [if_neg fun h => halu (beq_iff_eq.mp h.1), if_neg fun h => halu h.1]

/-- Settles O21: the slot commits the pending record, and leaves the word's own pending. -/
theorem delayedWriteBackRetiresThePreviousInstruction : Obligations.DelayedWriteBackRetiresThePreviousInstruction := by
  unfold Obligations.DelayedWriteBackRetiresThePreviousInstruction
  intro s w hs hwb hb
  exact ⟨_, step_eq_slot hs hb, afterSlot_pc _ _ _ _, surroundings_afterSlot _ _ _ _,
    readReg_afterSlot_delayed hwb _ _ _, rfl⟩

/-! ## What every instruction, well-formed or not, leaves alone -/

/-- Every instruction's slot has the destination of its word in its record, and neither the record nor the draw number
looks at IF's contents or at storage. -/
theorem exec_eq_afterSlot_elsewhere (i : Instr) (s : State) (l : Latch FetchRecord) (m : Memory) :
    ∃ r n, r.rd = rdOf (encode i) ∧ exec i s = .next (s.afterSlot (encode i) r n) ∧
      exec i { s with ifStage := l, mem := m } =
        .next (State.afterSlot { s with ifStage := l, mem := m } (encode i) r n) := by
  cases i <;> exact ⟨_, _, by simp [encode], rfl, rfl⟩

theorem exec_eq_afterSlot_rd (i : Instr) (s : State) :
    ∃ r n, r.rd = rdOf (encode i) ∧ exec i s = .next (s.afterSlot (encode i) r n) := by
  obtain ⟨r, n, hrd, h, -⟩ := exec_eq_afterSlot_elsewhere i s s.ifStage s.mem
  exact ⟨r, n, hrd, h⟩

/-- With the default `WB_PHASE` a slot leaves every register but its own destination alone. -/
theorem readReg_afterSlot_ne {s : State} (hwb : s.cfg.wbPhase = .writeBack) (w : Word) {r : ExecRecord} (n : Nat)
    {j : RegIx} (hj : j ≠ r.rd ∨ r.rd = 0) : (s.afterSlot w r n).readReg j = s.readReg j := by
  rw [readReg_afterSlot_default hwb, if_neg fun h => hj.elim (· h.2.1) h.2.2]

/-- Settles O16: a slot whose destination is x0 leaves every register alone. -/
theorem zeroDestinationWritesNoRegister : Obligations.ZeroDestinationWritesNoRegister := by
  unfold Obligations.ZeroDestinationWritesNoRegister
  intro i s hwb hrd0
  obtain ⟨r, n, hrd, h⟩ := exec_eq_afterSlot_rd i s
  exact ⟨_, h, fun j => readReg_afterSlot_ne hwb _ n (.inr (hrd.trans hrd0)), afterSlot_pc _ _ _ _⟩

/-- Settles O17: the registers a slot leaves alone, for each wiring of Write-Back. -/
theorem frameOfEveryInstruction : Obligations.FrameOfEveryInstruction := by
  unfold Obligations.FrameOfEveryInstruction
  intro i s t ht
  obtain ⟨r, n, hrd, h⟩ := exec_eq_afterSlot_rd i s
  rw [h] at ht
  cases ht
  refine ⟨surroundings_afterSlot _ _ _ _, readReg_zero _, fun hwb j hj => ?_, fun hwb j hj => ?_, fun hwb hflag j => ?_⟩
  · exact readReg_afterSlot_ne hwb _ n (.inl (hrd ▸ hj))
  · rw [readReg_afterSlot_delayed hwb, if_neg fun h => hj h.2.1]
  · rw [readReg_afterSlot_delayed hwb, if_neg fun h => Bool.false_ne_true (hflag.symm.trans h.1)]

/-- Settles O22: every instruction is a slot of its own word, and the slot commits the pending record. -/
theorem everyInstructionCompletesUnderDelayedWriteBack : Obligations.EveryInstructionCompletesUnderDelayedWriteBack := by
  unfold Obligations.EveryInstructionCompletesUnderDelayedWriteBack
  intro i s hwb
  obtain ⟨r, n, hrd, h⟩ := exec_eq_afterSlot_rd i s
  exact ⟨_, h, afterSlot_pc _ _ _ _, surroundings_afterSlot _ _ _ _, rfl, hrd, readReg_afterSlot_delayed hwb _ _ _⟩

/-- Settles O51: neither the record nor the slot around it looks at storage. -/
theorem noInstructionReadsDataMemory : Obligations.NoInstructionReadsDataMemory := by
  unfold Obligations.NoInstructionReadsDataMemory
  intro i s m
  obtain ⟨r, n, -, h, h'⟩ := exec_eq_afterSlot_elsewhere i s s.ifStage m
  exact ⟨_, h, h'.trans (congrArg _ (afterSlot_withMem s m _ r n))⟩

/-- Write-Back does not look at IF (R20, R100). -/
theorem commit_withIfStage (s : State) (l : Latch FetchRecord) (r : ExecRecord) :
    State.commit { s with ifStage := l } r = { s.commit r with ifStage := l } := by
  unfold State.commit State.writeReg
  repeat' split
  all_goals rfl

/-- What a slot finds in IF it uses for the new program counter alone (R20). -/
theorem afterSlot_withIfStage (s : State) (l : Latch FetchRecord) (w : Word) (r : ExecRecord) (n : Nat) :
    State.afterSlot { s with ifStage := l } w r n =
      { s.afterSlot w r n with ifStage := Latch.both { pc := l.cur.pc + 4, instr := w } } := by
  have hcommit : State.commit { s with ifStage := l } (State.retiring { s with ifStage := l } r) =
      { s.commit (s.retiring r) with ifStage := l } := commit_withIfStage s l (s.retiring r)
  rw [State.afterSlot, hcommit]
  rfl

/-- Settles O52: the record does not look at IF, and the slot only for the new program counter. -/
theorem noInstructionReadsTheProgramCounter : Obligations.NoInstructionReadsTheProgramCounter := by
  unfold Obligations.NoInstructionReadsTheProgramCounter
  intro i s l
  obtain ⟨r, n, -, h, h'⟩ := exec_eq_afterSlot_elsewhere i s l s.mem
  exact ⟨_, _, h, h'.trans (congrArg _ (afterSlot_withIfStage s l _ r n)), rfl, rfl, rfl⟩

/-! ## The other no-op words (R132, R133) -/

/-- Settles O14: one row per opcode, the effect of each that of a slot without a result. -/
theorem remainingLabelledOpcodesAreNoOps : Obligations.RemainingLabelledOpcodesAreNoOps := by
  unfold Obligations.RemainingLabelledOpcodesAreNoOps
  refine ⟨rowDecodes_of_opcode 0x07#7 (by decide) fun _ _ => rfl, rowDecodes_of_opcode 0x27#7 (by decide) fun _ _ => rfl,
    rowDecodes_of_opcode 0x2F#7 (by decide) fun _ _ => rfl, rowDecodes_of_opcode 0x1B#7 (by decide) fun _ _ => rfl,
    rowDecodes_of_opcode 0x3B#7 (by decide) fun _ _ => rfl, rowDecodes_of_opcode 0x43#7 (by decide) fun _ _ => rfl,
    rowDecodes_of_opcode 0x47#7 (by decide) fun _ _ => rfl, rowDecodes_of_opcode 0x4B#7 (by decide) fun _ _ => rfl,
    rowDecodes_of_opcode 0x4F#7 (by decide) fun _ _ => rfl, rowDecodes_of_opcode 0x53#7 (by decide) fun _ _ => rfl,
    fun other s hwb => ?_⟩
  refine ⟨?_, ?_, ?_, ?_, ?_, ?_, ?_, ?_, ?_, ?_⟩ <;> exact onlyPcAdvances_of_slotWithoutResult (fun _ => rfl) hwb

/-- Settles O15: the constant words have rows of their own, an unnamed opcode the last row, and none has a result. -/
theorem zeroOnesAndUnlabelledWordsAreNoOps : Obligations.ZeroOnesAndUnlabelledWordsAreNoOps := by
  unfold Obligations.ZeroOnesAndUnlabelledWordsAreNoOps
  refine ⟨fun alt => ⟨rfl, rfl⟩, fun alt w => decode_of_not_named alt, fun w s hwb => ⟨?_, ?_, ?_⟩⟩ <;>
  exact onlyPcAdvances_of_slotWithoutResult (fun _ => rfl) hwb

/-! ## The laws of ADD, SUB and ADDI (R115) -/

/-- A field other than the least value and its negation extend to opposite Words. -/
theorem sext12_add_sext12_neg {k : BitVec 12} (hk : k ≠ 0x800#12) : sext12 k + sext12 (-k) = 0 := by
  have hlt := k.isLt
  have hne : k.toNat ≠ 2048 := fun h => hk (BitVec.eq_of_toNat_eq h)
  apply BitVec.eq_of_toNat_eq
  rw [BitVec.toNat_add, toNat_sext12, toNat_sext12, BitVec.toNat_neg]
  simp only [BitVec.ofNat_eq_ofNat, BitVec.toNat_ofNat]
  split <;> split <;> omega

/-- Settles O57, each law from what the instructions write and the arithmetic of Words. -/
theorem addAndSubUndoEachOther : Obligations.AddAndSubUndoEachOther := by
  unfold Obligations.AddAndSubUndoEachOther
  intro s rd rs1 rs2 f g k hwb hrd
  refine ⟨fun hne => ?_, fun hk => ?_, ?_, ?_⟩
  · obtain ⟨t, ht, hsum, -, ⟨hcfg, -⟩, -⟩ := writesResult_of_slotWithResult (i := .add rd rs1 rs2 f) hwb rfl
    obtain ⟨u, hu, hdifference, -⟩ := writesResult_of_slotWithResult (i := .sub rd rd rs2 g) (hcfg ▸ hwb) rfl
    refine ⟨t, u, ht, hu, ?_⟩
    rw [hdifference, if_pos ⟨rfl, hrd⟩, hsum, hsum, if_pos ⟨rfl, hrd⟩, if_neg fun h => hne h.1.symm,
      BitVec.add_sub_cancel]
  · obtain ⟨t, ht, hsum, -, ⟨hcfg, -⟩, -⟩ := writesResult_of_slotWithResult (i := .addi rd rs1 k) hwb rfl
    obtain ⟨u, hu, hback, -⟩ := writesResult_of_slotWithResult (i := .addi rd rd (-k)) (hcfg ▸ hwb) rfl
    refine ⟨t, u, ht, hu, ?_⟩
    rw [hback, if_pos ⟨rfl, hrd⟩, hsum, if_pos ⟨rfl, hrd⟩, BitVec.add_assoc, sext12_add_sext12_neg hk]
    exact BitVec.add_zero _
  · obtain ⟨t, ht, hsum, -⟩ := writesResult_of_slotWithResult (i := .add rd rs1 rs2 f) hwb rfl
    obtain ⟨u, hu, hsum', -⟩ := writesResult_of_slotWithResult (i := .add rd rs2 rs1 g) hwb rfl
    refine ⟨t, u, ht, hu, fun j => ?_⟩
    rw [hsum, hsum', BitVec.add_comm]
  · obtain ⟨t, ht, hdifference, -⟩ := writesResult_of_slotWithResult (i := .sub rd rs1 rs1 g) hwb rfl
    refine ⟨t, ht, ?_⟩
    rw [hdifference, if_pos ⟨rfl, hrd⟩]
    exact BitVec.sub_self _

end Sys2Proof.Machine
end

section
/-! PROOFS. Steps, cycles and runs (spec/40_pipeline_stages.md R86, R105, R108; 20_memory.md R52, R62; 42_other_words.md
R134): what every completed cycle keeps, the slot as five cycles, and how a run goes on and ends. -/

namespace Sys2Proof.Machine

/-! ## A completed cycle (R52, R86, R105) -/

/-- The latch point makes every pair agree. -/
theorem settled_of_cycle {s t : State} (h : cycle s = .next t) : t.Settled := by
  obtain ⟨-, u, rfl, -⟩ := cycle_next h
  exact ⟨rfl, rfl, rfl, rfl, rfl⟩

theorem cycle_keeps_surroundings {s t : State} (h : cycle s = .next t) :
    t.cfg = s.cfg ∧ t.mem = s.mem ∧ t.status = s.status := by
  obtain ⟨-, u, rfl, hcfg, hmem, hstatus, -⟩ := cycle_next h
  exact ⟨hcfg, hmem, hstatus⟩

/-- Settles O31: the latch point makes the pairs agree, and no `compute()` assigns a stalled stage's next value. -/
theorem everyPairAgreesAfterACycle : Obligations.EveryPairAgreesAfterACycle := by
  unfold Obligations.EveryPairAgreesAfterACycle
  intro s t h
  refine ⟨settled_of_cycle h, ?_⟩
  obtain ⟨-, u, rfl, -, -, -, -, uif, ude, uex, uma, -⟩ := cycle_next h
  simp only [advancePhase_ifStage, advancePhase_deStage, advancePhase_exStage, advancePhase_maStage, latchAll_ifStage,
    latchAll_deStage, latchAll_exStage, latchAll_maStage, Latch.advance_cur]
  exact ⟨fun hp => by rw [uif hp], fun hp => by rw [ude hp], fun hp => by rw [(uex hp).1], fun hp => by rw [uma hp]⟩

/-! ## The end of an open slot (R89, R108) -/

/-- From inside a slot each cycle brings its end one cycle nearer. -/
theorem cyclesLeft_eq {p : Phase} (hp : p ≠ .fetch) :
    cyclesLeft p = if p.succ = .fetch then 1 else cyclesLeft p.succ + 1 := by
  cases p with
  | fetch => exact absurd rfl hp
  | decode | execute | memoryAccess | writeBack => rfl

/-- From inside a slot the cycles that are left complete, and what every completed cycle keeps holds at its end. -/
theorem runCycles_to_slot_end {P : State → Prop} (hkeep : ∀ u t, P u → u.phase ≠ .fetch → cycle u = .next t → P t) :
    ∀ (n : Nat) {s : State}, cyclesLeft s.phase = n → s.status = .running → s.phase ≠ .fetch → P s →
      ∃ t, runCycles n s = .next t ∧ t.AtSlotStart ∧ t.Settled ∧ P t
  | 0, s, hn, _, hp, _ => by
    rw [cyclesLeft_eq hp] at hn
    split at hn <;> cases hn
  | n + 1, s, hn, hrun, hp, hP => by
    obtain ⟨t, ht⟩ : ∃ t, cycle s = .next t := ⟨_, cycle_open hrun hp⟩
    have hphase : t.phase = s.phase.succ := everyCycleAdvancesThePhase.1 s t ht
    obtain ⟨-, -, hkept⟩ := cycle_keeps_surroundings ht
    have hstatus : t.status = .running := hkept.trans hrun
    rw [cyclesLeft_eq hp, ← hphase] at hn
    rw [runCycles_succ_of_next ht]
    split at hn
    case isTrue hend =>
      obtain rfl : n = 0 := by omega
      exact ⟨t, rfl, ⟨hstatus, hend⟩, settled_of_cycle ht, hkeep s t hP hp ht⟩
    case isFalse hopen => exact runCycles_to_slot_end hkeep n (by omega) hstatus hopen (hkeep s t hP hp ht)

/-- A step from inside a slot finishes it, and what every completed cycle keeps holds then. -/
theorem step_of_open_slot {P : State → Prop} (hkeep : ∀ u t, P u → u.phase ≠ .fetch → cycle u = .next t → P t) {s : State}
    (hrun : s.status = .running) (hp : s.phase ≠ .fetch) (hP : P s) :
    ∃ t, step s = .next t ∧ t.AtSlotStart ∧ t.Settled ∧ P t := by
  have hstep : step s = finishOpenSlot s := by
    rcases step_cases s with ⟨f, hf, _⟩ | ⟨f, hs, _⟩ | ⟨w, hs, _⟩ | ⟨_, _, h⟩
    · rw [hrun] at hf
      cases hf
    · exact absurd hs.2 hp
    · exact absurd hs.2 hp
    · exact h
  rw [hstep]
  exact runCycles_to_slot_end hkeep _ rfl hrun hp hP

/-- What the cycles of an open slot keep of the state the slot is finished from. -/
def KeptInSlot (s u : State) : Prop := u.cfg = s.cfg ∧ u.mem = s.mem ∧ (s.Settled → u.Settled ∧ u.pc = s.pc)

theorem keptInSlot_of_cycle {s u t : State} (h : KeptInSlot s u) (hp : u.phase ≠ .fetch) (ht : cycle u = .next t) :
    KeptInSlot s t := by
  obtain ⟨hcfg, hmem, hpc⟩ := h
  obtain ⟨hcfg', hmem', -⟩ := cycle_keeps_surroundings ht
  refine ⟨hcfg'.trans hcfg, hmem'.trans hmem, fun h => ⟨settled_of_cycle ht, ?_⟩⟩
  obtain ⟨⟨hif, -⟩, hpc⟩ := hpc h
  exact (cycle_pc_not_fetch hif hp ht).trans hpc

/-- Settles O24: the cycles that are left of an open slot complete, and none of them is a Fetch cycle. -/
theorem openSlotIsFinishedWithoutAFault : Obligations.OpenSlotIsFinishedWithoutAFault := by
  unfold Obligations.OpenSlotIsFinishedWithoutAFault
  intro s hrun hp
  obtain ⟨t, ht, hend, hsettled, hcfg, hmem, hpc⟩ :=
    step_of_open_slot (fun _ _ => keptInSlot_of_cycle) hrun hp ⟨rfl, rfl, fun h => ⟨h, rfl⟩⟩
  exact ⟨t, ht, hend, hcfg, hmem, hsettled, fun h => (hpc h).2⟩

/-! ## A step (R52, R62, R146) -/

section
variable {s : State}

theorem step_of_faulted {f : Fault} (h : s.status = .faulted f) : step s = .fault f := by rw [step, h]

/-- A step from a slot boundary with the program counter off the map stops the machine (R62). -/
theorem step_of_unmapped (hs : s.AtSlotStart) (ha : aligned s.pc = true) (hm : route s.cfg s.pc = .unmapped) :
    step s = .fault (.unmappedAddress s.pc .read) :=
  step_of_busRead_error hs (busRead_unmapped ha hm)

theorem step_of_mapped (hs : s.AtSlotStart) (ha : aligned s.pc = true) (hm : route s.cfg s.pc ≠ .unmapped) :
    ∃ t, step s = .next t :=
  ⟨_, step_eq_slot hs (busRead_mapped ha hm)⟩

theorem step_of_open (hrun : s.status = .running) (hp : s.phase ≠ .fetch) :
    ∃ t, step s = .next t ∧ t.cfg = s.cfg ∧ t.mem = s.mem ∧ t.status = s.status := by
  obtain ⟨t, ht, ⟨hstatus, -⟩, hcfg, hmem, -⟩ := openSlotIsFinishedWithoutAFault s hrun hp
  exact ⟨t, ht, hcfg, hmem, hstatus.trans hrun.symm⟩

/-- What a completed step from a slot boundary leaves: the next slot boundary (R108). -/
theorem step_slot {t : State} (hs : s.AtSlotStart) (h : step s = .next t) :
    t.AtSlotStart ∧ t.Settled ∧ t.pc = s.pc + 4 ∧ t.mem = s.mem ∧ t.cfg = s.cfg := by
  obtain ⟨w, r, n, rfl⟩ := step_eq_afterSlot hs h
  obtain ⟨hcfg, -, hmem, hstatus, hphase⟩ := surroundings_afterSlot s w r n
  exact ⟨⟨hstatus.trans hs.1, hphase.trans hs.2⟩, ⟨rfl, rfl, rfl, rfl, rfl⟩, afterSlot_pc _ _ _ _, hmem, hcfg⟩

/-- The two places a completed step can start from: a slot boundary, or inside a slot. -/
theorem step_keeps_surroundings {t : State} (h : step s = .next t) :
    t.cfg = s.cfg ∧ t.mem = s.mem ∧ t.status = s.status := by
  cases hrun : s.status with
  | faulted f =>
    rw [step_of_faulted hrun] at h
    cases h
  | running =>
    by_cases hp : s.phase = .fetch
    · obtain ⟨⟨hstatus, -⟩, -, -, hmem, hcfg⟩ := step_slot ⟨hrun, hp⟩ h
      exact ⟨hcfg, hmem, hstatus⟩
    · obtain ⟨u, hu, hkept⟩ := step_of_open hrun hp
      rw [h] at hu
      cases hu
      rwa [hrun] at hkept

end

/-- Settles O50: no cycle assigns storage, the deployment or the status, and no slot does. -/
theorem nothingTheCoreDoesWritesMemory : Obligations.NothingTheCoreDoesWritesMemory := by
  unfold Obligations.NothingTheCoreDoesWritesMemory
  intro s t h
  obtain ⟨hcfg, hmem, hstatus⟩ := h.elim step_keeps_surroundings cycle_keeps_surroundings
  exact ⟨fun a => by rw [hmem], busRead_congr hcfg hmem, hmem, hcfg, hstatus⟩

theorem step_ne_refused (s : State) (r : Refusal) : step s ≠ .refused r := by
  cases hrun : s.status with
  | faulted f => rw [step_of_faulted hrun]; nofun
  | running =>
    by_cases hp : s.phase = .fetch
    · cases hb : busRead s s.pc with
      | error f => rw [step_of_busRead_error ⟨hrun, hp⟩ hb]; nofun
      | ok w => rw [step_eq_slot ⟨hrun, hp⟩ hb]; nofun
    · obtain ⟨t, ht, -⟩ := step_of_open hrun hp
      rw [ht]
      nofun

theorem cycle_ne_refused (s : State) (r : Refusal) : cycle s ≠ .refused r := by
  rcases cycle_cases s with ⟨f, _, h⟩ | ⟨f, _, _, _, h⟩ | ⟨w, _, _, _, h⟩ | ⟨_, _, h⟩ <;> rw [h] <;> nofun

/-- Settles O36: every way a step or a cycle can go ends in a next state or a condition. -/
theorem noStepIsRefused : Obligations.NoStepIsRefused := by
  unfold Obligations.NoStepIsRefused
  exact ⟨fun s r => ⟨step_ne_refused s r, cycle_ne_refused s r⟩, fun s f h => ⟨step_of_faulted h, cycle_of_faulted h⟩⟩

/-- Settles O35: off the map a slot's fetch stops the machine, on it the slot completes, and an open slot completes. -/
theorem onlyAnUnmappedFetchStopsTheCore : Obligations.OnlyAnUnmappedFetchStopsTheCore := by
  unfold Obligations.OnlyAnUnmappedFetchStopsTheCore
  intro s hrun ha
  by_cases hoff : s.phase = .fetch ∧ route s.cfg s.pc = .unmapped
  · obtain ⟨hp, hm⟩ := hoff
    rw [step_of_unmapped ⟨hrun, hp⟩ ha hm]
    simp [hp, hm, eq_comm]
  · have hon : s.phase ≠ .fetch ∨ route s.cfg s.pc ≠ .unmapped := not_and_or.mp hoff
    obtain ⟨t, ht⟩ : ∃ t, step s = .next t := by
      by_cases hp : s.phase = .fetch
      · exact step_of_mapped ⟨hrun, hp⟩ ha (hon.resolve_left (not_not_intro hp))
      · obtain ⟨t, ht, -⟩ := step_of_open hrun hp
        exact ⟨t, ht⟩
    rw [ht]
    exact ⟨fun f => ⟨nofun, fun h => absurd ⟨h.1, h.2.1⟩ hoff⟩, fun _ => ⟨t, rfl⟩, fun _ => hon⟩

/-! ## A step as five cycles (R108, R109) -/

theorem runCycles_succ_of_fault {n : Nat} {s : State} {f : Fault} (h : cycle s = .fault f) :
    runCycles (n + 1) s = .fault f := by
  rw [runCycles, h]

/-- From a slot boundary five cycles and a step end alike. -/
theorem runCycles_five_eq_step {s : State} (h : s.Settled) (hp : s.phase = .fetch) : runCycles 5 s = step s := by
  cases hrun : s.status with
  | faulted f => rw [runCycles_succ_of_fault (cycle_of_faulted hrun), step_of_faulted hrun]
  | running =>
    cases hb : busRead s s.pc with
    | error f =>
      rw [runCycles_succ_of_fault (cycle_of_computeIF_error hrun (computeIF_error hp hb)),
        step_of_busRead_error ⟨hrun, hp⟩ hb]
    | ok w => rw [runCycles_five ⟨hrun, hp⟩ h hb, step_eq_slot ⟨hrun, hp⟩ hb]

/-- Settles O23, by induction on the number of steps: each is five cycles, and ends at a slot boundary with agreeing
pairs. -/
theorem stepsAreFiveCyclesEach : Obligations.StepsAreFiveCyclesEach := by
  unfold Obligations.StepsAreFiveCyclesEach
  intro n
  induction n with
  | zero => exact fun _ _ _ => rfl
  | succ n ih =>
    intro s h hp
    rw [Nat.mul_succ, Nat.add_comm, runCycles_add, runCycles_five_eq_step h hp, runSteps]
    cases hstep : step s with
    | fault f => rfl
    | refused r => rfl
    | next t =>
      cases hrun : s.status with
      | faulted f =>
        rw [step_of_faulted hrun] at hstep
        cases hstep
      | running =>
        obtain ⟨⟨-, hp'⟩, h', -⟩ := step_slot ⟨hrun, hp⟩ hstep
        exact ih t h' hp'

/-! ## Runs (R62, R134) -/

theorem runSteps_succ_of_next {n : Nat} {s t : State} (h : step s = .next t) : runSteps (n + 1) s = runSteps n t := by
  rw [runSteps, h]

/-- A run that completes started with a step that completed. -/
theorem runSteps_succ_next {n : Nat} {s t : State} (h : runSteps (n + 1) s = .next t) :
    ∃ u, step s = .next u ∧ runSteps n u = .next t := by
  cases hstep : step s with
  | next u => exact ⟨u, rfl, runSteps_succ_of_next hstep ▸ h⟩
  | fault f =>
    rw [runSteps, hstep] at h
    cases h
  | refused r =>
    rw [runSteps, hstep] at h
    cases h

/-- A run that completes goes on with the step of the state it reached. -/
theorem runSteps_succ_last {n : Nat} {s t : State} (h : runSteps n s = .next t) : runSteps (n + 1) s = step t := by
  induction n generalizing s with
  | zero =>
    cases h
    rw [runSteps]
    cases step t <;> rfl
  | succ n ih =>
    obtain ⟨u, hu, hrest⟩ := runSteps_succ_next h
    rw [runSteps_succ_of_next hu, ih hrest]

/-- One word on and then `n` more are `n + 1` words, also where the address wraps (R21). -/
theorem add_four_add (a : Word) (n : Nat) : a + 4 + BitVec.ofNat 32 (4 * n) = a + BitVec.ofNat 32 (4 * (n + 1)) := by
  apply BitVec.eq_of_toNat_eq
  simp only [BitVec.toNat_add, BitVec.toNat_ofNat, BitVec.ofNat_eq_ofNat]
  omega

/-- Settles O54, by induction on the number of steps. -/
theorem runsAreStraightLines : Obligations.RunsAreStraightLines := by
  unfold Obligations.RunsAreStraightLines
  intro n
  induction n with
  | zero =>
    intro s t hs h
    cases h
    exact ⟨hs, (BitVec.add_zero _).symm, rfl, rfl⟩
  | succ n ih =>
    intro s t hs h
    obtain ⟨u, hu, hrest⟩ := runSteps_succ_next h
    obtain ⟨hslot, -, hpc, hmem, hcfg⟩ := step_slot hs hu
    obtain ⟨hslot', hpc', hmem', hcfg'⟩ := ih u t hslot hrest
    exact ⟨hslot', by rw [hpc', hpc, add_four_add], hmem'.trans hmem, hcfg'.trans hcfg⟩

/-- Settles O55, by induction on the number of steps: each completes on a mapped address and leads to the next. -/
theorem runsCompleteWhileMapped : Obligations.RunsCompleteWhileMapped := by
  unfold Obligations.RunsCompleteWhileMapped
  intro n
  induction n with
  | zero => exact fun s _ _ _ => ⟨s, rfl⟩
  | succ n ih =>
    intro s hs ha hmapped
    have hfirst : route s.cfg s.pc ≠ .unmapped := by simpa using hmapped 0 (Nat.succ_pos n)
    obtain ⟨u, hu⟩ := step_of_mapped hs ha hfirst
    obtain ⟨hslot, -, hpc, -, hcfg⟩ := step_slot hs hu
    rw [runSteps_succ_of_next hu]
    refine ih u hslot (by rw [hpc, aligned_add_four, ha]) fun k hk => ?_
    rw [hcfg, hpc, add_four_add]
    exact hmapped (k + 1) (Nat.succ_lt_succ hk)

/-- From an aligned address every aligned address is fewer than 2^30 words on, modulo 2^32. -/
theorem exists_words_apart {a b : Word} (ha : aligned a = true) (hb : aligned b = true) :
    ∃ k, k < 2 ^ 30 ∧ a + BitVec.ofNat 32 (4 * k) = b := by
  rw [aligned_iff] at ha hb
  have hlt := a.isLt
  have hlt' := b.isLt
  refine ⟨(b.toNat + 2 ^ 32 - a.toNat) % 2 ^ 32 / 4, by omega, ?_⟩
  apply BitVec.eq_of_toNat_eq
  rw [BitVec.toNat_add, BitVec.toNat_ofNat]
  omega

theorem aligned_add_words {a : Word} (ha : aligned a = true) (k : Nat) :
    aligned (a + BitVec.ofNat 32 (4 * k)) = true := by
  rw [aligned_iff] at ha ⊢
  rw [BitVec.toNat_add, BitVec.toNat_ofNat]
  omega

/-- Settles O56: the run completes up to the first unmapped word after the program counter, and stops there. -/
theorem everyRunEndsOffTheMap : Obligations.EveryRunEndsOffTheMap := by
  unfold Obligations.EveryRunEndsOffTheMap
  intro s hs ha ⟨a, haligned, hunmapped⟩
  obtain ⟨k, hk, rfl⟩ := exists_words_apart ha haligned
  have hex : ∃ k, route s.cfg (s.pc + BitVec.ofNat 32 (4 * k)) = .unmapped := ⟨k, hunmapped⟩
  have hle : Nat.find hex ≤ k := Nat.find_min' hex hunmapped
  obtain ⟨t, ht⟩ := runsCompleteWhileMapped (Nat.find hex) s hs ha fun j hj => Nat.find_min hex hj
  obtain ⟨hslot, hpc, -, hcfg⟩ := runsAreStraightLines (Nat.find hex) s t hs ht
  have hoff : route s.cfg t.pc = .unmapped := hpc ▸ Nat.find_spec hex
  have hend : aligned t.pc = true := hpc ▸ aligned_add_words ha (Nat.find hex)
  refine ⟨Nat.find hex + 1, t.pc, by omega, hend, hoff, ?_⟩
  rw [runSteps_succ_last ht, step_of_unmapped hslot hend (hcfg ▸ hoff)]

end Sys2Proof.Machine
end

section
/-! PROOFS. The invariant (spec/10_state.md sections 2 and 4; 20_memory.md section 2; 40_pipeline_stages.md section 4):
storage in form, the launch state, and every step and every cycle. -/

namespace Sys2Proof.Machine

/-! ## Storage in form (R40, R41, R43, R49) -/

/-- Storage stays in form when a range that is mapped is cleared and Words that fit it are stored from its base. -/
theorem storageOk_setWords_clear {s : State} {base size : Nat} {ws : List Word} (h : s.StorageOk)
    (hfit : 4 * ws.length ≤ size)
    (hrange : ∀ n, base ≤ n → n < base + size → inRom s.cfg n = true ∨ inRam s.cfg n = true) :
    State.StorageOk { s with mem := (s.mem.clear base size).setWords base ws } := by
  obtain ⟨hwf, hmapped⟩ := h
  refine ⟨wf_setWords ws base (wf_clear base size hwf), fun c hc => ?_⟩
  rcases mem_setWords ws hc with hold | hnew
  · exact hmapped c (List.mem_of_mem_filter hold)
  · exact hrange c.1 hnew.1 (by omega)

/-- The four bytes of an aligned Word of RAM lie in RAM, whose bounds are aligned (R41). -/
theorem storageOk_setWord {s : State} {a : Word} (v : Word) (hadm : s.cfg.Admissible) (h : s.StorageOk)
    (ha : aligned a = true) (hram : inRam s.cfg a.toNat = true) :
    State.StorageOk { s with mem := s.mem.setWord a.toNat v } := by
  obtain ⟨hwf, hmapped⟩ := h
  obtain ⟨⟨-, hbase, -, hsize⟩, -⟩ := hadm
  rw [aligned_iff] at ha
  rw [inRam_iff] at hram
  refine ⟨wf_setWord a.toNat v hwf, fun c hc => ?_⟩
  rcases mem_setWord hc with hold | hnew
  · exact hmapped c hold
  · have hin : inRam s.cfg c.1 = true := inRam_iff.mpr ⟨by omega, by omega⟩
    exact .inr hin

theorem storageOk_of_romLoad {s t : State} {image : List Word} (h : s.StorageOk) (hload : romLoad s image = .ok t) :
    t.StorageOk := by
  rcases romLoad_cases s image with ⟨_, h'⟩ | ⟨hfit, h'⟩ <;> rw [hload] at h' <;> cases h'
  rw [romCapacity] at hfit
  exact storageOk_setWords_clear h (by omega) fun n hlo hhi => .inl (inRom_iff.mpr ⟨hlo, hhi⟩)

/-- A bus write that succeeds is one to RAM, and writes storage only. -/
theorem busWrite_ok {s t : State} {a v : Word} (h : busWrite s a v = .ok t) :
    aligned a = true ∧ inRam s.cfg a.toNat = true ∧ t = { s with mem := s.mem.setWord a.toNat v } := by
  rcases busWrite_cases s a v with ⟨_, h'⟩ | ⟨_, _, h'⟩ | ⟨ha, hr, h'⟩ | ⟨_, _, h'⟩ <;> rw [h] at h' <;> cases h'
  exact ⟨ha, inRam_of_route_ram hr, rfl⟩

theorem storageOk_of_busWrite {s t : State} {a v : Word} (hadm : s.cfg.Admissible) (h : s.StorageOk)
    (hwrite : busWrite s a v = .ok t) : t.StorageOk := by
  obtain ⟨ha, hram, rfl⟩ := busWrite_ok hwrite
  exact storageOk_setWord v hadm h ha hram

/-- Settles O49: a write stays in RAM and a load in ROM. -/
theorem hostWritesKeepStorageInForm : Obligations.HostWritesKeepStorageInForm := by
  unfold Obligations.HostWritesKeepStorageInForm
  exact fun s hadm h => ⟨fun a v t => storageOk_of_busWrite hadm h, fun image t => storageOk_of_romLoad h⟩

/-! ## The launch state (R38, R160 to R163) -/

theorem statusOk_of_running {s : State} (h : s.status = .running) : s.statusOk = true := by rw [State.statusOk, h]

theorem aligned_romBase {c : Config} (hadm : c.Admissible) : aligned (BitVec.ofNat 32 c.romBase) = true := by
  obtain ⟨⟨hbase, -⟩, -⟩ := hadm
  rw [aligned_iff, BitVec.toNat_ofNat]
  omega

theorem fieldsOf_zero : DecodedRecord.zero.FieldsOf 0 := by decide

/-- Zero latches are chained, and the launch program counter is aligned. -/
theorem inv_of_atLaunch {s : State} (hadm : s.cfg.Admissible) (hstorage : s.StorageOk)
    (hdraws : s.draws.nxt = s.draws.cur) (h : s.AtLaunch) : s.Inv := by
  obtain ⟨hif, hde, hex, hma, hphase, hstatus⟩ := h
  refine ⟨hadm, hstorage, ?_, ?_, ?_, statusOk_of_running hstatus⟩
  · rw [State.pc, hif]
    exact aligned_romBase hadm
  · rw [State.Settled, hif, hde, hex, hma]
    exact ⟨rfl, rfl, rfl, rfl, hdraws⟩
  · rw [State.Chained, hif, hde, hex, hma]
    exact ⟨fun _ => fieldsOf_zero, fun _ => ⟨rfl, rfl⟩, fun _ => rfl⟩

theorem atLaunch_initial (c : Config) : (State.initial c).AtLaunch := ⟨rfl, rfl, rfl, rfl, rfl, rfl⟩

theorem inv_initial {c : Config} (hadm : c.Admissible) : (State.initial c).Inv :=
  inv_of_atLaunch hadm ⟨rfl, fun _ h => absurd h List.not_mem_nil⟩ rfl (atLaunch_initial c)

/-- Settles O45: the example deployment's map is admissible. -/
theorem resetMeetsTheInvariant : Obligations.ResetMeetsTheInvariant := by
  unfold Obligations.ResetMeetsTheInvariant
  exact inv_initial (by decide)

theorem atLaunch_hostReset (p : LaunchParams) (s : State) : (hostReset p s).AtLaunch := ⟨rfl, rfl, rfl, rfl, rfl, rfl⟩

theorem inv_hostReset (p : LaunchParams) {s : State} (h : s.Inv) : (hostReset p s).Inv := by
  obtain ⟨hadm, hstorage, -⟩ := h
  have hfit : 4 * (p.ramInit.take (s.cfg.ramSize / 4)).length ≤ s.cfg.ramSize := by
    rw [List.length_take]
    omega
  have hreset : (hostReset p s).StorageOk :=
    storageOk_setWords_clear hstorage hfit fun n hlo hhi => .inr (inRam_iff.mpr ⟨hlo, hhi⟩)
  exact inv_of_atLaunch hadm hreset rfl (atLaunch_hostReset p s)

/-- The invariant says of storage only that it is in form. -/
theorem inv_withMem {s : State} {m : Memory} (h : s.Inv) (hm : State.StorageOk { s with mem := m }) :
    State.Inv { s with mem := m } := by
  obtain ⟨hadm, -, hpc, hsettled, hchained, hstatus⟩ := h
  exact ⟨hadm, hm, hpc, hsettled, hchained, hstatus⟩

theorem inv_of_romLoad {s t : State} {image : List Word} (h : s.Inv) (hload : romLoad s image = .ok t) : t.Inv := by
  have ⟨_, hold, _⟩ := h
  have hstorage := storageOk_of_romLoad hold hload
  rcases romLoad_cases s image with ⟨_, h'⟩ | ⟨_, h'⟩ <;> rw [hload] at h' <;> cases h'
  exact inv_withMem h hstorage

theorem inv_of_busWrite {s t : State} {a v : Word} (h : s.Inv) (hwrite : busWrite s a v = .ok t) : t.Inv := by
  have ⟨hadm, hold, _⟩ := h
  have hstorage := storageOk_of_busWrite hadm hold hwrite
  obtain ⟨-, -, rfl⟩ := busWrite_ok hwrite
  exact inv_withMem h hstorage

/-- Settles O46: a machine at its launch state with storage in form meets the invariant, and both are so after a load and
a reset. -/
theorem launchMeetsTheInvariant : Obligations.LaunchMeetsTheInvariant := by
  unfold Obligations.LaunchMeetsTheInvariant
  refine ⟨fun c image p s hadm hlaunch => ?_, fun p s => inv_hostReset p⟩
  unfold launch at hlaunch
  split at hlaunch
  · cases hlaunch
  next t hload =>
    cases hlaunch
    exact inv_hostReset p (inv_of_romLoad (inv_initial hadm) hload)

/-! ## What a reset leaves in storage (R35, R36, R161) -/

theorem hostReset_ramWord {p : LaunchParams} {s : State} (hm : s.mem.wf = true)
    (hfit : p.ramInit.length ≤ s.cfg.ramSize / 4) {k : Nat} (hk : k < s.cfg.ramSize / 4) :
    (hostReset p s).mem.wordAt (s.cfg.ramBase + 4 * k) = p.ramInit.getD k 0 := by
  rw [hostReset, List.take_of_length_le hfit]
  exact wordAt_setWords_clear _ hm (by omega)

/-- A reset keeps the image: RAM's range is disjoint from ROM's (R41). -/
theorem hostReset_romWord (p : LaunchParams) {s : State} (hadm : s.cfg.Admissible) (hm : s.mem.wf = true) {k : Nat}
    (hk : k < s.cfg.romSize / 4) :
    (hostReset p s).mem.wordAt (s.cfg.romBase + 4 * k) = s.mem.wordAt (s.cfg.romBase + 4 * k) := by
  obtain ⟨-, -, -, hdisjoint⟩ := hadm
  have hfit : 4 * (p.ramInit.take (s.cfg.ramSize / 4)).length ≤ s.cfg.ramSize := by
    rw [List.length_take]
    omega
  exact wordAt_setWords_clear_outside hm hfit (by omega)

/-- Settles O42: the launch values by definition, the storage by what clearing RAM and storing its launch contents does. -/
theorem resetLeavesTheLaunchState : Obligations.ResetLeavesTheLaunchState := by
  unfold Obligations.ResetLeavesTheLaunchState
  intro p s hadm hm hfit
  exact ⟨rfl, rfl, rfl, rfl, rfl, rfl, ⟨rfl, rfl, rfl, rfl, rfl⟩, rfl, fun i hi => if_neg hi,
    fun k => hostReset_ramWord hm hfit, fun k => hostReset_romWord p hadm hm⟩

/-! ## The first word to run (R59, R163) -/

/-- Settles O43: after boot the Word at the program counter, which is the ROM's base, is image word 0. -/
theorem firstStepRunsImageWordZero : Obligations.FirstStepRunsImageWordZero := by
  unfold Obligations.FirstStepRunsImageWordZero
  intro c image p hadm hfit
  have hfirst : 0 < c.romSize / 4 := by
    obtain ⟨-, ⟨hsize, -⟩, -⟩ := hadm
    omega
  obtain ⟨t, hload⟩ : ∃ t, romLoad (State.initial c) image = .ok t := ⟨_, romLoad_fits hfit⟩
  obtain ⟨hcfg, hrom⟩ := romLoad_ok rfl hload
  obtain rfl : t.cfg = c := hcfg
  obtain ⟨-, ⟨hwf, -⟩, -⟩ := inv_of_romLoad (inv_initial hadm) hload
  obtain ⟨hnat, haligned, hmapped⟩ := romWord_address hadm hfirst
  have hword : (hostReset p t).mem.wordAt (t.cfg.romBase + 4 * 0) = image.getD 0 0 :=
    (hostReset_romWord p hadm hwf hfirst).trans (hrom 0 hfirst)
  have hb : busRead (hostReset p t) (hostReset p t).pc = .ok (image.getD 0 0) := by
    rw [← hword, ← hnat]
    exact busRead_mapped haligned hmapped
  exact ⟨hostReset p t, by rw [launch, hload], step_of_busRead_ok ⟨rfl, rfl⟩ hb⟩

/-- Settles O44: the Word at the program counter is the one that was placed there. -/
theorem placedWordIsTheNextToRun : Obligations.PlacedWordIsTheNextToRun := by
  unfold Obligations.PlacedWordIsTheNextToRun
  intro s w hm ha hmapped
  have hword : (s.withFetchWord 32 w).mem.wordAt s.pc.toNat = BitVec.ofNat 32 w := by
    rw [withFetchWord_mem, wordAt_setWord_same _ _ hm]
    exact BitVec.eq_of_toNat_eq (by rw [BitVec.toNat_ofNat, BitVec.toNat_ofNat, Nat.mod_mod])
  have hb := busRead_mapped (s := s.withFetchWord 32 w) ha hmapped
  rw [hword] at hb
  exact step_of_busRead_ok ⟨rfl, rfl⟩ hb

/-! ## Every cycle and every step (R88, R105, R108, R147) -/

/-- Each stage's record is renewed from the stage before it, in its own phase (R93, R95, R99). -/
theorem chained_of_cycle {s t : State} (hrun : s.status = .running) (hs : s.Settled) (h : s.Chained)
    (ht : cycle s = .next t) : t.Chained := by
  obtain ⟨hde, hex, hma⟩ := h
  cases hp : s.phase with
  | fetch =>
    cases hb : busRead s s.pc with
    | error f =>
      rw [cycle_of_computeIF_error hrun (computeIF_error hp hb)] at ht
      cases ht
    | ok w =>
      rw [cycle_fetch_ok ⟨hrun, hp⟩ hs hb] at ht
      cases ht
      exact ⟨fun hne => absurd rfl hne, fun _ => hex (by simp [hp]), fun _ => hma (by simp [hp])⟩
  | decode =>
    rw [cycle_decode hrun hs hp] at ht
    cases ht
    exact ⟨fun _ => ⟨rfl, rfl, rfl, rfl, rfl, rfl⟩, fun hne => absurd rfl hne, fun _ => hma (by simp [hp])⟩
  | execute =>
    rw [cycle_execute hrun hs hp] at ht
    cases ht
    exact ⟨fun _ => hde (by simp [hp]), fun _ => ⟨rfl, rfl⟩, fun hne => absurd rfl hne⟩
  | memoryAccess =>
    rw [cycle_memoryAccess hrun hs hp] at ht
    cases ht
    exact ⟨fun _ => hde (by simp [hp]), fun _ => hex (by simp [hp]), fun _ => rfl⟩
  | writeBack =>
    rw [cycle_writeBack hrun hs hp] at ht
    cases ht
    exact ⟨fun _ => hde (by simp [hp]), fun _ => hex (by simp [hp]), fun _ => hma (by simp [hp])⟩

theorem aligned_pc_of_cycle {s t : State} (hs : s.Settled) (h : aligned s.pc = true) (ht : cycle s = .next t) :
    aligned t.pc = true := by
  rw [pcAdvancesByFourInFetchOnly.1 s t hs ht]
  split
  · rwa [aligned_add_four]
  · exact h

/-- Storage in form is a matter of the deployment and storage alone. -/
theorem storageOk_congr {s t : State} (hcfg : t.cfg = s.cfg) (hmem : t.mem = s.mem) (h : s.StorageOk) : t.StorageOk := by
  rwa [State.StorageOk, hcfg, hmem]

theorem inv_of_cycle {s t : State} (h : s.Inv) (ht : cycle s = .next t) : t.Inv := by
  obtain ⟨hadm, hstorage, hpc, hsettled, hchained, -⟩ := h
  obtain ⟨hrun, -⟩ := cycle_next ht
  obtain ⟨hcfg, hmem, hstatus⟩ := cycle_keeps_surroundings ht
  exact ⟨hcfg ▸ hadm, storageOk_congr hcfg hmem hstorage, aligned_pc_of_cycle hsettled hpc ht, settled_of_cycle ht,
    chained_of_cycle hrun hsettled hchained ht, statusOk_of_running (hstatus.trans hrun)⟩

/-- After a slot every stage holds the record of the slot's own word (R108). -/
theorem inv_afterSlot {s : State} (w : Word) (h : s.Inv) (hrun : s.status = .running) :
    (s.afterSlot w (s.slotRecord w) (s.slotDraws w)).Inv := by
  obtain ⟨hadm, hstorage, hpc, -⟩ := h
  obtain ⟨hcfg, -, hmem, hstatus, -⟩ := surroundings_afterSlot s w (s.slotRecord w) (s.slotDraws w)
  refine ⟨hcfg ▸ hadm, storageOk_congr hcfg hmem hstorage, ?_, ⟨rfl, rfl, rfl, rfl, rfl⟩,
    ⟨fun _ => ⟨rfl, rfl, rfl, rfl, rfl, rfl⟩, fun _ => ⟨rfl, rfl⟩, fun _ => rfl⟩, statusOk_of_running (hstatus.trans hrun)⟩
  rw [afterSlot_pc, aligned_add_four, hpc]

/-- Settles O47: a step is a whole slot, or the cycles that are left of an open one, each of which keeps the invariant. -/
theorem stepKeepsTheInvariant : Obligations.StepKeepsTheInvariant := by
  unfold Obligations.StepKeepsTheInvariant
  intro s t h ht
  cases hrun : s.status with
  | faulted f =>
    rw [step_of_faulted hrun] at ht
    cases ht
  | running =>
    by_cases hp : s.phase = .fetch
    · cases hb : busRead s s.pc with
      | error f =>
        rw [step_of_busRead_error ⟨hrun, hp⟩ hb] at ht
        cases ht
      | ok w =>
        rw [step_eq_slot ⟨hrun, hp⟩ hb] at ht
        cases ht
        exact inv_afterSlot w h hrun
    · obtain ⟨u, hu, -, -, hinv⟩ := step_of_open_slot (fun u v hu _ => inv_of_cycle hu) hrun hp h
      rw [ht] at hu
      cases hu
      exact hinv

/-- A machine whose fetch fails stops with the condition of its own program counter (R107, R147). -/
theorem inv_takeFault {s : State} {f : Fault} (h : s.Inv) (hrun : s.status = .running) (hf : cycle s = .fault f) :
    (s.takeFault f).Inv := by
  obtain ⟨hadm, hstorage, hpc, hsettled, hchained, -⟩ := h
  obtain ⟨hp, hb⟩ := fetch_of_cycle_fault hrun hf
  have hcondition : f = .unmappedAddress s.pc .read := by
    rcases busRead_cases s s.pc with ⟨ha, -⟩ | ⟨-, -, h'⟩ | ⟨-, -, h'⟩
    · exact absurd (hpc.symm.trans ha) Bool.noConfusion
    · rw [hb] at h'
      cases h'
      rfl
    · rw [hb] at h'
      cases h'
  exact ⟨hadm, hstorage, hpc, hsettled, hchained, decide_eq_true ⟨hcondition, hp⟩⟩

theorem inv_hostCycle {s : State} (h : s.Inv) : (hostCycle s).machine.Inv := by
  cases hrun : s.status with
  | faulted f => rwa [hostCycle_of_faulted hrun]
  | running =>
    cases hc : cycle s with
    | next t =>
      rw [hostCycle, hc]
      exact inv_of_cycle h hc
    | fault f =>
      rw [hostCycle_of_cycle_fault hc]
      exact inv_takeFault h hrun hc
    | refused r => exact absurd hc (cycle_ne_refused s r)

/-- Settles O48: the machine a call leaves is the Faulted one it found, the next state of its cycle, or itself stopped
where its fetch failed. -/
theorem cycleCallKeepsTheInvariant : Obligations.CycleCallKeepsTheInvariant := by
  unfold Obligations.CycleCallKeepsTheInvariant
  exact fun s => inv_hostCycle

end Sys2Proof.Machine
end

section
/-! PROOFS. The host (spec/70_reset_and_hazards.md R164, R166 to R168): when each interaction is allowed, what it does, and
that the session it leaves is in order. -/

namespace Sys2Proof.Machine

/-! ## The load (R166, R167) -/

section
variable {h : Session}

theorem hostLoad_refused_iff (image : List Word) :
    hostLoad image h = .error .loadInRun ↔ h.run = .underWay := by
  rcases hostLoad_cases image h with ⟨hr, heq⟩ | ⟨f, hr, -, heq⟩ | ⟨t, hr, -, heq⟩
  · exact iff_of_true heq hr
  · exact iff_of_false (by rw [heq]; nofun) hr
  · exact iff_of_false (by rw [heq]; nofun) hr

theorem hostLoad_ok {image : List Word} {t : State} (hr : h.run ≠ .underWay) (hload : romLoad h.machine image = .ok t) :
    hostLoad image h =
      .ok { session := { machine := t, run := if h.run = .fresh then .fresh else .reloaded }, answer := .done } := by
  rw [hostLoad, if_pos ((allowsLoad_iff _).mpr hr), hload, ← afterLoad_eq]
  rfl

theorem hostLoad_error {image : List Word} {f : Fault} (hr : h.run ≠ .underWay)
    (hload : romLoad h.machine image = .error f) :
    hostLoad image h = .ok { session := h, answer := .condition f } := by
  rw [hostLoad, if_pos ((allowsLoad_iff _).mpr hr), hload]
  rfl

/-! ## The preloads (R166, R168) -/

theorem hostPreloadReg_fresh (hr : h.run = .fresh) (i : RegIx) (v : Word) :
    hostPreloadReg i v h = .ok { session := { h with machine := h.machine.writeReg i v }, answer := .done } :=
  if_pos ((allowsPreload_iff _).mpr hr)

theorem hostPreloadReg_refused_iff (i : RegIx) (v : Word) :
    hostPreloadReg i v h = .error .preloadAfterFirstCycle ↔ h.run ≠ .fresh := by
  rcases hostPreloadReg_cases i v h with ⟨hr, heq⟩ | ⟨hr, heq⟩
  · exact iff_of_true heq hr
  · exact iff_of_false (by rw [heq]; nofun) (not_not_intro hr)

theorem hostPreloadRam_refused_iff (a v : Word) :
    hostPreloadRam a v h = .error .preloadAfterFirstCycle ↔ h.run ≠ .fresh := by
  rcases hostPreloadRam_cases a v h with ⟨hr, heq⟩ | ⟨f, hr, -, heq⟩ | ⟨t, hr, -, heq⟩
  · exact iff_of_true heq hr
  · exact iff_of_false (by rw [heq]; nofun) (not_not_intro hr)
  · exact iff_of_false (by rw [heq]; nofun) (not_not_intro hr)

theorem hostPreloadRam_ok {a v : Word} {t : State} (hr : h.run = .fresh) (hwrite : busWrite h.machine a v = .ok t) :
    hostPreloadRam a v h = .ok { session := { h with machine := t }, answer := .done } := by
  rw [hostPreloadRam, if_pos ((allowsPreload_iff _).mpr hr), hwrite]
  rfl

theorem hostPreloadRam_error {a v : Word} {f : Fault} (hr : h.run = .fresh)
    (hwrite : busWrite h.machine a v = .error f) :
    hostPreloadRam a v h = .ok { session := h, answer := .condition f } := by
  rw [hostPreloadRam, if_pos ((allowsPreload_iff _).mpr hr), hwrite]
  rfl

/-! ## The `cycle()` call and inspection (R147, R166, R169) -/

theorem hostRunCycle_refused_iff :
    hostRunCycle h = .error .cycleAfterLoad ↔ h.machine.status = .running ∧ h.run = .reloaded := by
  rcases hostRunCycle_cases h with ⟨f, hs, heq⟩ | ⟨hs, hr, heq⟩ | ⟨hs, hr, -, heq⟩ | ⟨f, hs, hr, -, heq⟩
  · exact iff_of_false (by rw [heq]; nofun) fun hc => by rw [hs] at hc; cases hc.1
  · exact iff_of_true heq ⟨hs, hr⟩
  · exact iff_of_false (by rw [heq]; nofun) fun hc => hr hc.2
  · exact iff_of_false (by rw [heq]; nofun) fun hc => hr hc.2

theorem hostRunCycle_ok {r : HostReport} (h' : hostRunCycle h = .ok r) :
    r.session.machine = (hostCycle h.machine).machine ∧
    r.answer = (match (hostCycle h.machine).raised with | none => .done | some f => .condition f) := by
  rcases hostRunCycle_cases h with ⟨f, hs, heq⟩ | ⟨-, -, heq⟩ | ⟨-, -, hraised, heq⟩ | ⟨f, -, -, hraised, heq⟩ <;>
    rw [h'] at heq <;> cases heq
  · rw [hostCycle_of_faulted hs]
    exact ⟨rfl, rfl⟩
  · rw [hraised]
    exact ⟨rfl, rfl⟩
  · rw [hraised]
    exact ⟨rfl, rfl⟩

/-- A call that raises nothing leaves the machine Running. -/
theorem hostCycle_status {s : State} (hs : s.status = .running) (hraised : (hostCycle s).raised = none) :
    (hostCycle s).machine.status = .running := by
  cases hc : cycle s with
  | next t =>
    obtain ⟨-, -, hstatus⟩ := cycle_keeps_surroundings hc
    rw [hostCycle, hc]
    exact hstatus.trans hs
  | fault f =>
    rw [hostCycle_of_cycle_fault hc] at hraised
    cases hraised
  | refused r => exact absurd hc (cycle_ne_refused s r)

theorem hostMove_inspectBus (a : Word) : hostMove (.inspectBus a) h =
    .ok { session := h, answer := (match busRead h.machine a with | .ok w => .word w | .error f => .condition f) } := by
  rw [hostMove, hostInspectBus]
  cases busRead h.machine a <;> rfl

end

/-! ## The session stays in order (R163, R164) -/

theorem afterLoad_fresh_iff (r : RunProgress) : r.afterLoad = .fresh ↔ r = .fresh := by cases r <;> decide

theorem afterLoad_ne_underWay (r : RunProgress) : r.afterLoad ≠ .underWay := by cases r <;> decide

theorem afterStop_fresh_iff (r : RunProgress) : r.afterStop = .fresh ↔ r = .fresh := by cases r <;> decide

theorem afterStop_ne_underWay (r : RunProgress) : r.afterStop ≠ .underWay := by cases r <;> decide

theorem session_ok_constructed {c : Config} (hadm : c.Admissible) : (Session.constructed c).Ok :=
  ⟨inv_initial hadm, fun _ => atLaunch_initial c, nofun⟩

section
variable {h : Session} (hok : h.Ok)
include hok

theorem session_ok_reset (p : LaunchParams) : Session.Ok { machine := hostReset p h.machine, run := .fresh } :=
  ⟨inv_hostReset p hok.1, fun _ => atLaunch_hostReset p h.machine, nofun⟩

/-- A load writes storage only, and leaves no run under way. -/
theorem session_ok_load {image : List Word} {t : State} (hload : romLoad h.machine image = .ok t) :
    Session.Ok { machine := t, run := h.run.afterLoad } := by
  have hinv := inv_of_romLoad hok.1 hload
  rcases romLoad_cases h.machine image with ⟨_, h'⟩ | ⟨_, h'⟩ <;> rw [hload] at h' <;> cases h'
  exact ⟨hinv, fun hr => hok.2.1 ((afterLoad_fresh_iff _).mp hr), fun hr => absurd hr (afterLoad_ne_underWay _)⟩

theorem session_ok_preloadReg (hr : h.run = .fresh) (i : RegIx) (v : Word) :
    Session.Ok { h with machine := h.machine.writeReg i v } := by
  rw [writeReg_eq]
  exact ⟨hok.1, hok.2.1, fun hr' => by cases hr.symm.trans hr'⟩

theorem session_ok_preloadRam (hr : h.run = .fresh) {a v : Word} {t : State}
    (hwrite : busWrite h.machine a v = .ok t) : Session.Ok { h with machine := t } := by
  have hinv := inv_of_busWrite hok.1 hwrite
  obtain ⟨-, -, rfl⟩ := busWrite_ok hwrite
  exact ⟨hinv, hok.2.1, fun hr' => by cases hr.symm.trans hr'⟩

theorem session_ok_cycle {r : HostReport} (h' : hostRunCycle h = .ok r) : r.session.Ok := by
  rcases hostRunCycle_cases h with ⟨f, -, heq⟩ | ⟨-, -, heq⟩ | ⟨hs, -, hraised, heq⟩ | ⟨f, -, -, -, heq⟩ <;>
    rw [h'] at heq <;> cases heq
  · exact hok
  · exact ⟨inv_hostCycle hok.1, nofun, fun _ => hostCycle_status hs hraised⟩
  · exact ⟨inv_hostCycle hok.1, nofun, nofun⟩

theorem session_ok_stop : Session.Ok { h with run := h.run.afterStop } := by
  obtain ⟨hinv, hlaunch, -⟩ := hok
  exact ⟨hinv, fun hr => hlaunch ((afterStop_fresh_iff _).mp hr), fun hr => absurd hr (afterStop_ne_underWay _)⟩

/-- Every allowed interaction leaves a session in order. -/
theorem session_ok_hostMove {m : HostMove} {r : HostReport} (h' : hostMove m h = .ok r) : r.session.Ok := by
  cases m with
  | reset p =>
    cases h'
    exact session_ok_reset hok p
  | load image =>
    change hostLoad image h = .ok r at h'
    rcases hostLoad_cases image h with ⟨-, heq⟩ | ⟨f, -, -, heq⟩ | ⟨t, -, hload, heq⟩ <;> rw [h'] at heq <;> cases heq
    · exact hok
    · exact session_ok_load hok hload
  | preloadReg i v =>
    change hostPreloadReg i v h = .ok r at h'
    rcases hostPreloadReg_cases i v h with ⟨-, heq⟩ | ⟨hr, heq⟩ <;> rw [h'] at heq <;> cases heq
    exact session_ok_preloadReg hok hr i v
  | preloadRam a v =>
    change hostPreloadRam a v h = .ok r at h'
    rcases hostPreloadRam_cases a v h with ⟨-, heq⟩ | ⟨f, -, -, heq⟩ | ⟨t, hr, hwrite, heq⟩ <;> rw [h'] at heq <;>
      cases heq
    · exact hok
    · exact session_ok_preloadRam hok hr hwrite
  | cycle => exact session_ok_cycle hok h'
  | stop =>
    cases h'
    exact session_ok_stop hok
  | inspectReg i =>
    cases h'
    exact hok
  | inspectBus a =>
    rw [hostMove_inspectBus] at h'
    cases h'
    exact hok

end

/-- Settles O60: each interaction by what it can do, and each keeps the session in order. -/
theorem hostActsOnlyWhenAllowed : Obligations.HostActsOnlyWhenAllowed := by
  unfold Obligations.HostActsOnlyWhenAllowed
  refine ⟨fun h => ?_, fun c => session_ok_constructed, fun m h r hok => session_ok_hostMove hok⟩
  exact ⟨fun p => rfl, hostLoad_refused_iff, fun image t => hostLoad_ok, fun image f => hostLoad_error,
    hostPreloadReg_refused_iff, fun i v hr => hostPreloadReg_fresh hr i v,
    hostPreloadRam_refused_iff, fun a v t => hostPreloadRam_ok, fun a v f => hostPreloadRam_error,
    hostRunCycle_refused_iff, fun r => hostRunCycle_ok, fun i => rfl, hostMove_inspectBus⟩

end Sys2Proof.Machine
end
